-- ==== Sys2Proof/Word.lean ====
section
/-!
DEFINITION. The word types of the engine: 8-bit bytes (R5, R56), 7-bit slave addresses (R21, R73) and
10-bit event words (R71). Nothing else has a width: `index`, `CAP` and lengths are natural numbers (R8).
-/

namespace Sys2Proof

/-- One buffer cell, or the content of the data register: 8 bits (R5, R56). -/
abbrev Byte := BitVec 8

/-- A 7-bit slave address: an opaque identifier that is never extended, shifted or scaled (R73). -/
abbrev SlaveAddr := BitVec 7

/-- One event word `ev[9:0]` (R71). -/
abbrev EventWord := BitVec 10

end Sys2Proof
end

