-- ==== Sys2Proof/Config.lean ====
section
/-!
DEFINITION. What an implementation fixes (R5, R7), and the free values. The open parameters `CAP`, `ADDRESS`, `POLICY`
and `N_INST` are constants with no body (Log 1), shaped so that every value of them is a legal configuration: what is
proved of `State.reset` holds for all of them.
-/

namespace Sys2Proof

/-- The overflow policy (R24), fixed at configuration time. -/
inductive Policy where
  | triggerFlush
  | ignore
  | overwrite
deriving DecidableEq, Repr, Inhabited

/-- The parameters of ONE instance (R5, R36). Every instance of the state carries its own, so a statement about every
state is a statement about every configuration. -/
structure InstConfig where
  /-- `CAP`, the capacity of `buf` in bytes. -/
  cap : Nat
  /-- `ADDRESS`, the content of the `address` register (R21). -/
  address : SlaveAddr
  /-- `POLICY`, the content of the `policy` register (R24). -/
  policy : Policy
  /-- `TX_FILLER`, transmitted past `CAP` (R128). -/
  txFiller : Byte
deriving DecidableEq, Repr

/-- `N_INST - 1` (R5: `N_INST >= 1`). DESIGN CHOICE (Log 1), safe: open parameter, no body. -/
opaque Config.nInstPred : Nat

/-- `CAP - 1` of instance `k` (R5: `CAP >= 1`). DESIGN CHOICE (Log 1), safe: open parameter, no body. -/
opaque Config.capPred (k : Nat) : Nat

/-- `ADDRESS - 8` of instance `k` (R6: 8 to 119). DESIGN CHOICE (Log 1), safe: open parameter, no body. -/
opaque Config.addressOffset (k : Nat) : Fin 112

/-- `POLICY` of instance `k`. DESIGN CHOICE (Log 1), safe: open parameter, no body. -/
opaque Config.policy (k : Nat) : Policy

/-- Free value: the byte of cell `i` of instance `k` after the reset that is draw `n` of that instance
(R35, U7: any byte, one draw per cell, fixed until written). DESIGN CHOICE (Log 3), safe. -/
opaque Config.bufReset (k n i : Nat) : Byte

/-- Free value: what the data register of instance `k` holds after the `DrRead()` that is draw `n` of that instance
(N8 states nothing of it). DESIGN CHOICE (Log 5), safe. -/
opaque Config.drAfterRead (k n : Nat) : Byte

/-- `N_INST` (R5). -/
def Config.nInst : Nat := Config.nInstPred + 1

/-- `TX_FILLER` of this hardware (R5, D7; Log 2). -/
def Config.txFiller : Byte := 0xFF

/-- The configuration of instance `k` (R5). -/
def Config.instConfig (k : Nat) : InstConfig where
  cap := Config.capPred k + 1
  address := BitVec.ofNat 7 (8 + (Config.addressOffset k).val)
  policy := Config.policy k
  txFiller := Config.txFiller

end Sys2Proof
end

