-- ==== Sys2Proof/Syntax.lean ====
section
/-!
DEFINITION. The instruction set: the events of the engine, one constructor per row of spec/opcode_table.json (R70, R74).
-/

namespace Sys2Proof

/-- One decoded event (R74). -/
inductive Instr where
  /-- `COL`: Collision, a bus arbitration conflict (R100). -/
  | col
  /-- `AM addr`: AddressMatch (R105); `addr` is any 7-bit value (R77). -/
  | am (addr : SlaveAddr)
  /-- `DW`: DataByte(MasterWrites, no error) (R111, R118). -/
  | dw
  /-- `DWE.OV`: DataByte(MasterWrites, overflow = 1), `wcol` either (R110). -/
  | dweOv (wcol : Bool)
  /-- `DWE.WCOL`: DataByte(MasterWrites, overflow = 0, collision = 1) (R110). -/
  | dweWcol
  /-- `DR`: DataByte(MasterReads, any flags) (R125, R130). -/
  | dr (ov wcol : Bool)
  /-- `STOP`: Stop (R135, R137). -/
  | stop
deriving DecidableEq, Repr

end Sys2Proof
end

