-- ==== Sys2Proof/WellFormed.lean ====
section
/-!
DEFINITION. What a legal term is. Every term of `Instr` is a legal event: its operand types are exact (a 7-bit address of
any value, R77; single flags, R73). What can be ill formed is a configuration (R5, R6) and a pair of coincident events (R92).
-/

namespace Sys2Proof

/-- Every decoded event is well formed: R77 (no range check on `addr`), R74 (`ov` and `wcol` either). -/
def Instr.wellFormed : Instr → Bool
  | .col => true
  | .am _ => true
  | .dw => true
  | .dweOv _ => true
  | .dweWcol => true
  | .dr _ _ => true
  | .stop => true

/-- `CAP >= 1` (R5, D15). -/
def InstConfig.capLegal (c : InstConfig) : Bool := decide (1 ≤ c.cap)

/-- `ADDRESS` in 8 to 119 (R6). -/
def InstConfig.addressLegal (c : InstConfig) : Bool := decide (8 ≤ c.address.toNat) && decide (c.address.toNat ≤ 119)

/-- A configuration of this hardware (R5, R6). Policy code `0b11` (U8) is no `Policy`. -/
def InstConfig.legal (c : InstConfig) : Bool := c.capLegal && c.addressLegal

/-- One interrupt entry may carry a Collision and one coincident event of another kind, and no other pair (R92, R179 (a)). -/
def Instr.mayCoincide : Instr → Instr → Bool
  | .col, .col => false
  | .col, .am _ => true
  | .col, .dw => true
  | .col, .dweOv _ => true
  | .col, .dweWcol => true
  | .col, .dr _ _ => true
  | .col, .stop => true
  | .am _, _ => false
  | .dw, _ => false
  | .dweOv _, _ => false
  | .dweWcol, _ => false
  | .dr _ _, _ => false
  | .stop, _ => false

end Sys2Proof
end

