-- ==== Sys2Proof/Decode.lean ====
section
/-!
DEFINITION. The event word: its fields (R72, R73), the decoder (R75), the encoder, and the opcode table's rows (R74).
An event word is presented on a 10-bit port (R80); it lies in no memory and has no byte order (R50, R57).
-/

namespace Sys2Proof

/-- Why a word is reserved (R76). -/
inductive DecodeError where
  /-- kind `0b00` with a nonzero payload (255 words) -/
  | collisionPayload
  /-- kind `0b01` with bit 7 set (128 words) -/
  | addressBit7
  /-- kind `0b10` with one of bits 7:3 set (248 words) -/
  | dataBits
  /-- kind `0b11` with a nonzero payload (255 words) -/
  | stopPayload
  /-- wider than the 10 bits of an event word: no word of R71 at all (Log 17) -/
  | notAnEventWord
deriving DecidableEq, Repr

/-- `ev[9:8]` (R71). -/
def kindField (w : EventWord) : BitVec 2 := w.extractLsb' 8 2

/-- `ev[7:0]` (R71). -/
def payloadField (w : EventWord) : BitVec 8 := w.extractLsb' 0 8

/-- `addr = ev[6:0]` (R73). -/
def addrField (w : EventWord) : SlaveAddr := w.extractLsb' 0 7

/-- `ev[7]`, reserved in format EA (R72). -/
def addrReservedBit (w : EventWord) : Bool := w.getLsbD 7

/-- `ev[7:3]`, reserved in format ED (R72). -/
def dataReservedField (w : EventWord) : BitVec 5 := w.extractLsb' 3 5

/-- `dir = ev[0]`: 1 is MasterReads (R72). -/
def dirField (w : EventWord) : Bool := w.getLsbD 0

/-- `ov = ev[1]` (R72). -/
def ovField (w : EventWord) : Bool := w.getLsbD 1

/-- `wcol = ev[2]` (R72). -/
def wcolField (w : EventWord) : Bool := w.getLsbD 2

/-- The payload of kind `0b10`, format ED (R75). -/
def decodeDataByte (w : EventWord) : Except DecodeError Instr :=
  if dataReservedField w ≠ 0 then .error .dataBits
  else if dirField w then .ok (.dr (ovField w) (wcolField w))
  else if ovField w then .ok (.dweOv (wcolField w))
  else if wcolField w then .ok .dweWcol
  else .ok .dw

/-- The decoding procedure of R75, total on all 1024 words. -/
def decode (w : EventWord) : Except DecodeError Instr :=
  if kindField w = 0b00#2 then
    if payloadField w = 0 then .ok .col else .error .collisionPayload
  else if kindField w = 0b01#2 then
    if addrReservedBit w then .error .addressBit7 else .ok (.am (addrField w))
  else if kindField w = 0b10#2 then decodeDataByte w
  else if payloadField w = 0 then .ok .stop else .error .stopPayload

/-- The word of an event (R72, R74), field by field, most significant first. -/
def encode : Instr → EventWord
  | .col => 0b00#2 ++ 0x00#8
  | .am addr => 0b01#2 ++ 0b0#1 ++ addr
  | .dw => 0b10#2 ++ 0b00000#5 ++ 0b000#3
  | .dweOv wcol => 0b10#2 ++ 0b00000#5 ++ BitVec.ofBool wcol ++ 0b10#2
  | .dweWcol => 0b10#2 ++ 0b00000#5 ++ 0b100#3
  | .dr ov wcol => 0b10#2 ++ 0b00000#5 ++ BitVec.ofBool wcol ++ BitVec.ofBool ov ++ 0b1#1
  | .stop => 0b11#2 ++ 0x00#8

/-- One row of the opcode map (R74). -/
structure OpcodeRow where
  mnemonic : String
  pattern : EventWord
  mask : EventWord
deriving DecidableEq, Repr

/-- A word `w` selects a row when `(w & mask) = match` (R74). -/
def OpcodeRow.selects (r : OpcodeRow) (w : EventWord) : Bool := w &&& r.mask == r.pattern

/-- The row an event belongs to (R74). -/
def opcodeRow : Instr → OpcodeRow
  | .col => ⟨"COL", 0x000, 0x3FF⟩
  | .am _ => ⟨"AM", 0x100, 0x380⟩
  | .dw => ⟨"DW", 0x200, 0x3FF⟩
  | .dweOv _ => ⟨"DWE.OV", 0x202, 0x3FB⟩
  | .dweWcol => ⟨"DWE.WCOL", 0x204, 0x3FF⟩
  | .dr _ _ => ⟨"DR", 0x201, 0x3F9⟩
  | .stop => ⟨"STOP", 0x300, 0x3FF⟩

/-- The opcode map (R74), in the table's order. -/
def opcodeTable : List OpcodeRow :=
  [opcodeRow .col, opcodeRow (.am 0), opcodeRow .dw, opcodeRow (.dweOv false), opcodeRow .dweWcol,
    opcodeRow (.dr false false), opcodeRow .stop]

/-- The event word whose bits are `w`; a number of more than 10 bits is none (Log 17). -/
def eventWordOf (w : Nat) : Except DecodeError EventWord :=
  if w < 1024 then .ok (BitVec.ofNat 10 w) else .error .notAnEventWord

/-- The event the decoder reads from a word whose bits are `w`, numbered as spec/opcode_table.json numbers them. Every row
has the one 10-bit word, so `nbits` changes nothing. -/
def decodeTableWord (_nbits w : Nat) : Option Instr :=
  match eventWordOf w with
  | .error _ => none
  | .ok ev =>
    match decode ev with
    | .error _ => none
    | .ok i => some i

end Sys2Proof
end

