-- ==== Sys2Proof/Machine/State.lean ====
section
/-!
DEFINITION. The state of the machine as plain data (R20, R30, R36), the reasons a step can stop, and the state after reset (R35).
-/

namespace Sys2Proof.Machine

/-- The last observed transfer direction (R25); `none` is the document's "undefined". -/
inductive Direction where
  | none
  | write
  | read
deriving DecidableEq, Repr

/-- The buffer `buf` (R23, R50) as (cell number, byte) pairs in ONE canonical form: all `CAP` cells listed, numbers
rising from 0. A number that is not listed does not exist (R51; Log 11). -/
abbrev Memory := List Host.Cell

/-- The canonical form of a buffer of `cap` cells. -/
def Memory.wf (m : Memory) (cap : Nat) : Bool := m.map Prod.fst == List.range cap

/-- The registers of one instance (R20) with its configuration (R5); `address` and `policy` are `cfg`'s. -/
structure Instance where
  cfg : InstConfig
  /-- the transaction phase: mid-transaction (`true`) or idle (R26) -/
  active : Bool
  /-- the cursor into `buf`, a natural number 0 to `CAP` (R22) -/
  index : Nat
  direction : Direction
  buf : Memory
deriving DecidableEq, Repr

/-- The adapter's side of the interface of one instance (R30): environment state, not instance state. -/
structure Adapter where
  /-- the data register `DR` (R54, R55) -/
  dr : Byte
  /-- the held clock line (R142) -/
  sclHold : Bool
  rxOverflow : Bool
  writeCollision : Bool
  busCollision : Bool
deriving DecidableEq, Repr

/-- The four callbacks (R151 to R155). -/
inductive Callback where
  | begin
  | read
  | write
  | endTx
deriving DecidableEq, Repr

/-- One action of the trace (R12). -/
inductive Action where
  /-- `DRR` -/
  | drr
  /-- `DRW(v)` -/
  | drw (v : Byte)
  /-- `CLR_OV` -/
  | clrOv
  /-- `CLR_WCOL` -/
  | clrWcol
  /-- `REL` -/
  | rel
  /-- `begin(a)` -/
  | beginCall (addr : SlaveAddr)
  /-- `read([...], n)` -/
  | readCall (bytes : List Byte) (n : Nat)
  /-- `write()` -/
  | writeCall
  /-- `end()` -/
  | endCall
deriving DecidableEq, Repr

/-- How one callback ends. -/
inductive CallEnd where
  /-- it returns, having kept to the access limits of R157 -/
  | returns
  /-- it never returns (U12) -/
  | neverReturns
  /-- it invokes `handle` (U10) -/
  | reenters
  /-- it writes `index`, `direction`, `active`, or, being other than `write`, `buf` (U14) -/
  | oversteps
deriving DecidableEq, Repr

/-- The application's answers to the callbacks of one event. Each callback is invoked at most once per event (R160), so
one answer for each covers every behaviour (Log 8). -/
structure AppAnswer where
  onBegin : CallEnd
  onRead : CallEnd
  onWrite : CallEnd
  onEnd : CallEnd
  /-- what `write()` puts in the cells, from cell 0 on; a cell beyond the list keeps its content (R154) -/
  fill : List Byte
deriving DecidableEq, Repr

/-- What a callback can see at the moment of its call (R156, R153): the model's own record (Log 10). -/
structure CallView where
  call : Action
  inst : Instance
  sclHold : Bool
deriving DecidableEq, Repr

/-- One instance with its adapter, its application and its outputs (R36, R161). -/
structure Slave where
  inst : Instance
  adapter : Adapter
  app : AppAnswer
  /-- the action trace, oldest first (R12) -/
  trace : List Action
  /-- what each callback saw, oldest first -/
  calls : List CallView
  /-- how many free values this instance has drawn (Log 3, Log 5) -/
  draws : Nat
deriving DecidableEq, Repr

/-- One event as the environment presents it: the word, the adapter's registers at that moment (Log 6) and the
application's answers (Log 8). -/
structure Presented where
  word : EventWord
  dr : Byte
  rxOverflow : Bool
  writeCollision : Bool
  busCollision : Bool
  app : AppAnswer
deriving DecidableEq, Repr

/-- One input from outside. -/
inductive Input where
  /-- one interrupt entry for instance `k` (R92): whether the adapter holds the clock for it (R142), its event, and the
  event that coincides with it, if any -/
  | entry (k : Nat) (stretch : Bool) (event : Presented) (coincident : Option Presented)
  /-- a reset of instance `k`, between two events (R200) -/
  | reset (k : Nat)
deriving DecidableEq, Repr

/-- Why the machine stops. Both are safe: nothing is claimed of a machine that has stopped. -/
inductive Fault where
  /-- Raised by the buffer operations of Operands.lean on a cell `i >= CAP` ("such an access has no meaning and the model
  faults on it", R51). Safe: reached only outside the invariant `State.Inv`. -/
  | bufferBounds (cell : Nat)
  /-- Raised by `callBack` when the application never returns: U12's treatment "stuck" (R215). `u` is the instance where it is
  stuck: "at that callback with every earlier action of its trace done" (R180), the clock as held as it was (R144). Safe. -/
  | stuckInCallback (c : Callback) (u : Slave)
deriving DecidableEq, Repr

/-- What the model does not accept. All are safe: nothing is claimed of a refused run. -/
inductive Refusal where
  /-- Raised by `exec` for an instruction with no meaning yet. Safe. -/
  | notModelled (mnemonic : String)
  /-- Raised by `fetch` on a reserved event word ("a model refuses a run that contains one", R76, U9). Safe. -/
  | reservedWord (w : EventWord) (why : DecodeError)
  /-- Raised by `fetch` on an entry whose two events may not coincide (R92, R179 (a), D9). Safe. -/
  | illegalCoincidence (first second : EventWord)
  /-- Raised by `fetch` and by the meanings when no instance has this number (R190). Safe. -/
  | noSuchInstance (k : Nat)
  /-- Raised by `callBack` when the application invokes `handle` (U10's treatment "refuse", R182). Safe. -/
  | reentrantHandle (c : Callback)
  /-- Raised by `callBack` when the application breaks the access limits of R157 (U14's treatment "refuse"). Safe. -/
  | callbackOversteps (c : Callback)
deriving DecidableEq, Repr

/-- The whole machine. -/
structure State where
  /-- the instances, numbered from 0 (R36, R190) -/
  slaves : List Slave
  /-- the number of the instance whose event is being handled (R84) -/
  cur : Nat
  /-- the pending inputs, next first (R30) -/
  pending : List Input
deriving DecidableEq, Repr

/-- What `step` finds at the head of the queue. -/
inductive Fetched where
  /-- no event pending: the engine waits (R35) -/
  | waiting
  /-- a reset, already done -/
  | resetDone (s : State)
  /-- an accepted event and the state in which it is handled (R180) -/
  | event (i : Instr) (s : State)
  /-- an input the model does not accept -/
  | refuse (r : Refusal)
deriving DecidableEq, Repr

/-- An application all of whose callbacks return and leave every cell as it was. -/
def AppAnswer.quiet : AppAnswer := ⟨.returns, .returns, .returns, .returns, []⟩

/-- `buf` after reset: one free byte per cell (R35, U7; Log 3). -/
def Memory.afterReset (k n cap : Nat) : Memory := (List.range cap).map fun i => (i, Config.bufReset k n i)

/-- The registers after reset (R35). -/
def Instance.afterReset (k n : Nat) (cfg : InstConfig) : Instance where
  cfg := cfg
  active := false
  index := 0
  direction := .none
  buf := Memory.afterReset k n cfg.cap

/-- The adapter's side at power-on. The spec states nothing of it (N8): DESIGN CHOICE (Log 4), unsafe. -/
def Adapter.afterReset : Adapter := ⟨0, false, false, false, false⟩

/-- Instance `k` of the machine right after reset (R35). -/
def Slave.afterReset (k : Nat) : Slave where
  inst := Instance.afterReset k 0 (Config.instConfig k)
  adapter := Adapter.afterReset
  app := AppAnswer.quiet
  trace := []
  calls := []
  draws := 1

/-- `n` instances, numbered from `k` on (R190). -/
def slavesAfterReset : Nat → Nat → List Slave
  | 0, _ => []
  | n + 1, k => Slave.afterReset k :: slavesAfterReset n (k + 1)

/-- The machine right after reset (R35, R200): every instance idle, no event pending. -/
def State.reset : State where
  slaves := slavesAfterReset Config.nInst 0
  cur := 0
  pending := []

end Sys2Proof.Machine
end

