-- ==== Sys2Proof/Machine/Operands.lean ====
section
/-!
DEFINITION. The buffer as operand: one cell read, one cell written, the payload of `read`, and the content `write()` leaves
(R50, R51, R52, R153, R154). Every access is one byte (R56); a cell that is not listed does not exist (R51).
-/

namespace Sys2Proof.Machine

/-- The byte of cell `i`, if there is such a cell (R51). -/
def Memory.read? : Memory → Nat → Option Byte
  | [], _ => none
  | (a, b) :: m, i => if a = i then some b else Memory.read? m i

/-- `buf[i] <- v`: exactly one cell changes (R113); no cell is made. -/
def Memory.write : Memory → Nat → Byte → Memory
  | [], _, _ => []
  | (a, b) :: m, i, v => if a = i then (a, v) :: m else (a, b) :: Memory.write m i v

/-- The `n` cells from cell `i` on, in ascending order, if they all exist. -/
def Memory.cells (m : Memory) (i : Nat) : Nat → Option (List Byte)
  | 0 => some []
  | n + 1 =>
    match m.read? i with
    | none => none
    | some b =>
      match Memory.cells m (i + 1) n with
      | none => none
      | some bs => some (b :: bs)

/-- The payload `buf[0..n-1]` of a `read` callback (R153). -/
def Memory.payload (m : Memory) (n : Nat) : Option (List Byte) := m.cells 0 n

/-- The content `write()` leaves (R154): cell `i` holds entry `i` of the application's list, or, beyond the list, its old
content. Every content of all `CAP` cells can be written so. -/
def Memory.fill (m : Memory) (content : List Byte) : Memory :=
  m.map fun c => (c.1, (content[c.1]?).getD c.2)

end Sys2Proof.Machine
end

