-- ==== Sys2Proof/Machine/Ops.lean ====
section
/-!
DEFINITION. The named operations: register writes, the adapter's five primitives (R10), the four callbacks (R11, R150), the
append and transmit steps (R113, R126), taking an event (R180), reset (R200), and running a meaning on the instance whose
event is being handled (R190). The engine raises no exception (R13, R170): what enters is an event, and what returns is
`releaseClock` (R181).
-/

namespace Sys2Proof.Machine

/-- What a meaning answers. -/
abbrev Result (α : Type) := Host.Outcome α Fault Refusal

/-- `r`, and then `f` on the state it gives; a stop stays a stop. -/
def andThen {α β : Type} (r : Result α) (f : α → Result β) : Result β :=
  match r with
  | .next a => f a
  | .fault e => .fault e
  | .refused e => .refused e

/-! ### Register writes (R9) -/

/-- `index <- n`. -/
def setIndex (n : Nat) (u : Slave) : Slave := { u with inst := { u.inst with index := n } }

/-- `direction <- d`. -/
def setDirection (d : Direction) (u : Slave) : Slave := { u with inst := { u.inst with direction := d } }

/-- `active <- a`. -/
def setActive (a : Bool) (u : Slave) : Slave := { u with inst := { u.inst with active := a } }

/-- `buf <- m`. -/
def setBuf (m : Memory) (u : Slave) : Slave := { u with inst := { u.inst with buf := m } }

/-- Append one action to the trace (R12). -/
def emit (a : Action) (u : Slave) : Slave := { u with trace := u.trace ++ [a] }

/-! ### The adapter's primitives (R10, R30) -/

/-- The value `DrRead()` returns (R54). -/
def drValue (u : Slave) : Byte := u.adapter.dr

/-- The effect of `DrRead()` (R54): `DRR`, and the register is consumed: what it holds afterwards is a free value (Log 5). -/
def drRead (k : Nat) (u : Slave) : Slave :=
  { emit .drr u with
    adapter := { u.adapter with dr := Config.drAfterRead k u.draws }
    draws := u.draws + 1 }

/-- `DrWrite(v)` (R55). -/
def drWrite (v : Byte) (u : Slave) : Slave :=
  { emit (.drw v) u with adapter := { u.adapter with dr := v } }

/-- `ClearOverflow()` (R10). -/
def clearOverflow (u : Slave) : Slave :=
  { emit .clrOv u with adapter := { u.adapter with rxOverflow := false } }

/-- `ClearWriteCollision()` (R10). -/
def clearWriteCollision (u : Slave) : Slave :=
  { emit .clrWcol u with adapter := { u.adapter with writeCollision := false } }

/-- `ReleaseClock()` (R140, R142): harmless on a clock that is not held. -/
def releaseClock (u : Slave) : Slave :=
  { emit .rel u with adapter := { u.adapter with sclHold := false } }

/-! ### The callbacks (R150 to R159) -/

/-- A call that returned: one action of the trace, and the model's record of what the callback saw (R156; Log 10). -/
def logCall (a : Action) (u : Slave) : Slave :=
  { emit a u with calls := u.calls ++ [⟨a, u.inst, u.adapter.sclHold⟩] }

/-- One callback: an atomic step of the application inside the engine's step (R150, D12). If it returns, the call is one
action of the trace; if it never returns the run is stuck there (U12), with `u` as the earlier actions left it (R180); a callback that enters `handle` (U10) or breaks the access
limits (U14) is refused. -/
def callBack (c : Callback) (how : CallEnd) (a : Action) (u : Slave) : Result Slave :=
  match how with
  | .returns => .next (logCall a u)
  | .neverReturns => .fault (.stuckInCallback c u)
  | .reenters => .refused (.reentrantHandle c)
  | .oversteps => .refused (.callbackOversteps c)

/-- `Call begin(addr)` (R151). -/
def callBegin (addr : SlaveAddr) (u : Slave) : Result Slave :=
  callBack .begin u.app.onBegin (.beginCall addr) u

/-- `Call read(n)` (R152, R153): the payload is `buf[0..n-1]` as it stands when the call is issued. -/
def callRead (n : Nat) (u : Slave) : Result Slave :=
  match u.inst.buf.payload n with
  | none => .fault (.bufferBounds (n - 1))
  | some bytes => callBack .read u.app.onRead (.readCall bytes n) u

/-- `buf <- Call write()` (R154). -/
def callWrite (u : Slave) : Result Slave :=
  andThen (callBack .write u.app.onWrite .writeCall u) fun v => .next (setBuf (v.inst.buf.fill v.app.fill) v)

/-- `Call end()` (R155). -/
def callEnd (u : Slave) : Result Slave :=
  callBack .endTx u.app.onEnd .endCall u

/-! ### The buffer steps (R113, R126) -/

/-- `buf[index] <- b; index <- index + 1` (R113): the cell `index` named before the increment. -/
def appended (b : Byte) (u : Slave) : Slave :=
  setIndex (u.inst.index + 1) (setBuf (u.inst.buf.write u.inst.index b) u)

/-- The append (R113), bounds-checked (R51). -/
def appendByte (b : Byte) (u : Slave) : Result Slave :=
  match u.inst.buf.read? u.inst.index with
  | none => .fault (.bufferBounds u.inst.index)
  | some _ => .next (appended b u)

/-- The transmit step: `buf[index]` and `index + 1` below `CAP` (R126), the filler at `CAP` (R128). -/
def transmitByte (u : Slave) : Result Slave :=
  if u.inst.index < u.inst.cfg.cap then
    match u.inst.buf.read? u.inst.index with
    | none => .fault (.bufferBounds u.inst.index)
    | some b => .next (setIndex (u.inst.index + 1) (drWrite b u))
  else .next (drWrite u.inst.cfg.txFiller u)

/-! ### Taking an event, and reset -/

/-- The adapter and the application as the environment presents them with event `e` (R30, R142, R180): the clock is held if
the entry stretches it, and stays held if it was. Nothing of the instance changes and nothing is saved. -/
def acceptEvent (stretch : Bool) (e : Presented) (u : Slave) : Slave :=
  { u with
    adapter :=
      { dr := e.dr
        sclHold := u.adapter.sclHold || stretch
        rxOverflow := e.rxOverflow
        writeCollision := e.writeCollision
        busCollision := e.busCollision }
    app := e.app }

/-- Reset of instance `k` between two events (R200, R201): the values of R35, the buffer redrawn, no action. -/
def resetSlave (k : Nat) (u : Slave) : Slave :=
  { u with inst := Instance.afterReset k u.draws u.inst.cfg, draws := u.draws + 1 }

/-! ### The instance whose event is being handled -/

/-- The instance `cur` names. -/
def current? (s : State) : Option Slave := s.slaves[s.cur]?

/-- The state with that instance replaced. -/
def putCurrent (s : State) (u : Slave) : State := { s with slaves := s.slaves.set s.cur u }

/-- Run `f` on the instance whose event is being handled, and on nothing else (R190). -/
def onCurrent (f : Nat → Slave → Result Slave) (s : State) : Result State :=
  match current? s with
  | none => .refused (.noSuchInstance s.cur)
  | some u => andThen (f s.cur u) fun v => .next (putCurrent s v)

end Sys2Proof.Machine
end

