-- ==== Sys2Proof/Machine/Delivery.lean ====
section
/-!
DEFINITION. Event delivery (R60, R92, R177 to R180): taking the next input from the queue, and placing an event there. The
engine has no program counter and fetches no instructions (R26): its next instruction is the next event delivered.
-/

namespace Sys2Proof.Machine

/-- The instance with its queue moved on and event `e` accepted (R178, R180): `rest` is what stays pending. -/
def acceptInto (k : Nat) (stretch : Bool) (e : Presented) (u : Slave) (rest : List Input) (s : State) : State :=
  { s with slaves := s.slaves.set k (acceptEvent stretch e u), cur := k, pending := rest }

/-- Whether the coincident event `e`, if any, may ride on an entry whose first event decodes to `i` (R92, R179 (a)). A
reserved coincident word is let through here and refused, as reserved, when its turn comes. -/
def coincidenceOk (i : Instr) (coincident : Option Presented) : Bool :=
  match coincident with
  | none => true
  | some e =>
    match decode e.word with
    | .ok j => i.mayCoincide j
    | .error _ => i == .col

/-- What stays pending behind the first event of an entry: its coincident event, handled next, with the clock held at most
once for both (R92, R143). -/
def afterFirst (k : Nat) (coincident : Option Presented) (rest : List Input) : List Input :=
  match coincident with
  | none => rest
  | some e => .entry k false e none :: rest

/-- One interrupt entry (R92, R180): its first event is decoded and accepted; a reserved word (R76) and a pair that may not
coincide (R92) are refused. -/
def fetchEntry (k : Nat) (stretch : Bool) (e : Presented) (coincident : Option Presented) (rest : List Input)
    (s : State) : Fetched :=
  match s.slaves[k]? with
  | none => .refuse (.noSuchInstance k)
  | some u =>
    match decode e.word with
    | .error why => .refuse (.reservedWord e.word why)
    | .ok i =>
      if coincidenceOk i coincident then
        .event i (acceptInto k stretch e u (afterFirst k coincident rest) s)
      else .refuse (.illegalCoincidence e.word ((coincident.map Presented.word).getD 0))

/-- One reset input (R200). -/
def fetchReset (k : Nat) (rest : List Input) (s : State) : Fetched :=
  match s.slaves[k]? with
  | none => .refuse (.noSuchInstance k)
  | some u => .resetDone { s with slaves := s.slaves.set k (resetSlave k u), pending := rest }

/-- The next input, in the order of delivery (R60); with none pending the engine waits (R35). -/
def fetch (s : State) : Fetched :=
  match s.pending with
  | [] => .waiting
  | .entry k stretch e coincident :: rest => fetchEntry k stretch e coincident rest s
  | .reset k :: rest => fetchReset k rest s

/-- A word as a plain delivery: data register 0, no condition bit, an application that returns and rewrites nothing. -/
def plainEvent (w : EventWord) : Presented := ⟨w, 0, false, false, false, AppAnswer.quiet⟩

/-- The event word of bits `w` delivered next to instance 0 by an entry that holds the clock (Log 14). A number of more
than 10 bits is no event word, and then nothing is placed (Log 17). -/
def placeWord (s : State) (_nbits w : Nat) : State :=
  match eventWordOf w with
  | .error _ => s
  | .ok ev => { s with pending := .entry 0 true (plainEvent ev) none :: s.pending }

end Sys2Proof.Machine
end

