-- ==== Sys2Proof/Machine/AddressMatch.lean ====
section
/-!
DEFINITION. The AddressMatch event (42_address_match.md, R105 to R109).
-/

namespace Sys2Proof.Machine

/-- `DoAddressMatch` (R105): the address byte is consumed and not used (R106), `addr` is compared with nothing (R107),
`direction` becomes `None` (R109), and `begin` runs after the state writes. -/
def doAddressMatch (addr : SlaveAddr) (k : Nat) (u : Slave) : Result Slave :=
  andThen (callBegin addr (setActive true (setDirection .none (setIndex 0 (drRead k u))))) fun v =>
    .next (releaseClock v)

/-- `AM addr`, in any context (R91, R105). -/
def execAm (addr : SlaveAddr) (s : State) : Result State := onCurrent (doAddressMatch addr) s

end Sys2Proof.Machine
end

