-- ==== Sys2Proof/Machine/Collision.lean ====
section
/-!
DEFINITION. The Collision event (41_collision.md, R100 to R104).
-/

namespace Sys2Proof.Machine

/-- `DoCollision` (R100): the clock is released FIRST (R102), the data register consumed, the transaction abandoned.
No callback, no clear command (R103). -/
def doCollision (k : Nat) (u : Slave) : Result Slave :=
  .next (setActive false (drRead k (releaseClock u)))

/-- `COL`, in any context (R91, R100). -/
def execCol (s : State) : Result State := onCurrent doCollision s

end Sys2Proof.Machine
end

