-- ==== Sys2Proof/Machine/Flags.lean ====
section
/-!
DEFINITION. The condition inputs of a DataByte event (R28) and the five error conditions X1 to X5 (R170 to R176). The engine
keeps no flag register and records no condition: what is met is read off the event and the registers (R176).
-/

namespace Sys2Proof.Machine

/-- Clear the flagged conditions, overflow before write collision, and no other (R110, D11). -/
def clearFlagged (ov wcol : Bool) (u : Slave) : Slave :=
  let v := if ov then clearOverflow u else u
  if wcol then clearWriteCollision v else v

/-- The error conditions (R170). -/
inductive Condition where
  /-- X1 (R171) -/
  | busCollision
  /-- X2 (R172) -/
  | receiveOverflow
  /-- X3 (R173) -/
  | writeCollision
  /-- X4 (R174) -/
  | applicationBufferOverflow
  /-- X5 (R175) -/
  | transmitIndexOverflow
deriving DecidableEq, Repr

/-- The buffer is full in an open transaction: the cause of X4 in a `DW` and of X5 in a `DR` (R174, R175, R179 (e)). -/
def fullWhileActive (i : Instance) : Bool := i.active && i.index == i.cfg.cap

/-- The conditions an event is acted on for, in the order they are handled (R171 to R175; precedence R179). -/
def conditionsMet : Instr → Instance → List Condition
  | .col, _ => [.busCollision]
  | .am _, _ => []
  | .dw, i => if fullWhileActive i then [.applicationBufferOverflow] else []
  | .dweOv wcol, _ => if wcol then [.receiveOverflow, .writeCollision] else [.receiveOverflow]
  | .dweWcol, _ => [.writeCollision]
  | .dr _ _, i => if fullWhileActive i then [.transmitIndexOverflow] else []
  | .stop, _ => []

end Sys2Proof.Machine
end

