-- ==== Sys2Proof/Machine/Receive.lean ====
section
/-!
DEFINITION. The receive path: flagged bytes (R110), the append, the overflow policy arbiter and the idle arm
(43_receive.md, R110 to R123).
-/

namespace Sys2Proof.Machine

/-- `DoDiscard` (R110): the byte is consumed and dropped, the flagged conditions cleared; no state, no callback. -/
def doDiscard (ov wcol : Bool) (k : Nat) (u : Slave) : Result Slave :=
  .next (releaseClock (clearFlagged ov wcol (drRead k u)))

/-- The append and the clock release that end an accepted byte (R111, R113). -/
def appendAndRelease (b : Byte) (u : Slave) : Result Slave :=
  andThen (appendByte b u) fun v => .next (releaseClock v)

/-- The overflow policy arbiter (R114), for a byte `b` that finds `index = CAP`: flush and restart (R115), drop (R116), or
restart over the old bytes (R117). -/
def overflowArbiter (b : Byte) (u : Slave) : Result Slave :=
  match u.inst.cfg.policy with
  | .triggerFlush => andThen (callRead u.inst.cfg.cap u) fun v => appendAndRelease b (setIndex 0 v)
  | .ignore => .next (releaseClock u)
  | .overwrite => appendAndRelease b (setIndex 0 u)

/-- `DoReceive` (R111): the data register is read first (R121), `direction` is written before the arbiter (R112). -/
def doReceive (k : Nat) (u : Slave) : Result Slave :=
  let v := setDirection .write (drRead k u)
  if v.inst.index = v.inst.cfg.cap then overflowArbiter (drValue u) v else appendAndRelease (drValue u) v

/-- `DoIdleReceive` (R118). -/
def doIdleReceive (k : Nat) (u : Slave) : Result Slave := .next (releaseClock (drRead k u))

/-- The two arms of `DW` (R91). -/
def doDataWrite (k : Nat) (u : Slave) : Result Slave :=
  if u.inst.active then doReceive k u else doIdleReceive k u

/-- `DW` (R91, R111, R118). -/
def execDw (s : State) : Result State := onCurrent doDataWrite s

/-- `DWE.OV`, in any context (R91, R110). -/
def execDweOv (wcol : Bool) (s : State) : Result State := onCurrent (doDiscard true wcol) s

/-- `DWE.WCOL`, in any context (R91, R110). -/
def execDweWcol (s : State) : Result State := onCurrent (doDiscard false true) s

end Sys2Proof.Machine
end

