-- ==== Sys2Proof/Machine/Stop.lean ====
section
/-!
DEFINITION. The Stop event (45_stop.md, R135 to R138).
-/

namespace Sys2Proof.Machine

/-- `DoStop` (R135, R136): the pending flush if `direction = Write`, then `end`, then idle. -/
def doStop (u : Slave) : Result Slave :=
  andThen (if u.inst.direction = .write then callRead u.inst.index u else .next u) fun v =>
    andThen (callEnd v) fun w => .next (releaseClock (setActive false w))

/-- `DoIdleStop` (R137). -/
def doIdleStop (u : Slave) : Result Slave := .next (releaseClock u)

/-- The two arms of `STOP` (R91). -/
def doStopEvent (_k : Nat) (u : Slave) : Result Slave :=
  if u.inst.active then doStop u else doIdleStop u

/-- `STOP` (R91, R135, R137). -/
def execStop (s : State) : Result State := onCurrent doStopEvent s

end Sys2Proof.Machine
end

