-- ==== Sys2Proof/Machine/Transmit.lean ====
section
/-!
DEFINITION. The transmit path (44_transmit.md, R125 to R133).
-/

namespace Sys2Proof.Machine

/-- `DoTransmit` (R125): `direction` is written before the `write` callback (R131), which runs when `index = 0` on entry. -/
def doTransmit (u : Slave) : Result Slave :=
  let v := setDirection .read u
  andThen (if v.inst.index = 0 then callWrite v else .next v) fun w =>
    andThen (transmitByte w) fun x => .next (releaseClock x)

/-- `DoIdleTransmit` (R130): nothing is loaded. -/
def doIdleTransmit (u : Slave) : Result Slave := .next (releaseClock u)

/-- The two arms of `DR` (R91); the flags are neither tested nor cleared (R127). -/
def doDataRead (_ov _wcol : Bool) (_k : Nat) (u : Slave) : Result Slave :=
  if u.inst.active then doTransmit u else doIdleTransmit u

/-- `DR` (R91, R125, R130). -/
def execDr (ov wcol : Bool) (s : State) : Result State := onCurrent (doDataRead ov wcol) s

end Sys2Proof.Machine
end

