-- ==== Sys2Proof/Machine/Dispatch.lean ====
section
/-!
DEFINITION. The dispatch of `handle` (R91): one arm per event of the opcode table. The choice on `active` stands in the meanings.
-/

namespace Sys2Proof.Machine

/-- `handle(instance, event)` on the instance `cur` names (R90, R91). -/
def exec (i : Instr) (s : State) : Host.Outcome State Fault Refusal :=
  match i with
  | .col => Sys2Proof.Machine.execCol s
  | .am addr => Sys2Proof.Machine.execAm addr s
  | .dw => Sys2Proof.Machine.execDw s
  | .dweOv wcol => Sys2Proof.Machine.execDweOv wcol s
  | .dweWcol => Sys2Proof.Machine.execDweWcol s
  | .dr ov wcol => Sys2Proof.Machine.execDr ov wcol s
  | .stop => Sys2Proof.Machine.execStop s

end Sys2Proof.Machine
end

