-- ==== Sys2Proof/Machine/Layout.lean ====
section
/-!
DEFINITION. The bit-level layout of the registers (R24, R25, R29) and the configuration check (R6, U1, U8). None of the three
registers is addressable (R29): these words are views of the state, and no event reads or writes them.
-/

namespace Sys2Proof.Machine

/-- The code of `policy` (R24). -/
def policyCode : Policy → BitVec 2
  | .triggerFlush => 0b00
  | .ignore => 0b01
  | .overwrite => 0b10

/-- The policy of a code; `0b11` is reserved (R24, U8). -/
def policyOfCode (c : BitVec 2) : Option Policy :=
  if c = 0b00 then some .triggerFlush
  else if c = 0b01 then some .ignore
  else if c = 0b10 then some .overwrite
  else none

/-- The code of `direction` (R25); `0b11` is produced by nothing. -/
def directionCode : Direction → BitVec 2
  | .none => 0b00
  | .write => 0b01
  | .read => 0b10

/-- Register `CFG`: `policy` in [8:7], `address` in [6:0] (R29). -/
def cfgWord (i : Instance) : BitVec 9 := policyCode i.cfg.policy ++ i.cfg.address

/-- Register `STAT`: `direction` in [2:1], `active` in [0] (R29). -/
def statWord (i : Instance) : BitVec 3 := directionCode i.direction ++ BitVec.ofBool i.active

/-- `IDX_W = ceil(log2(CAP+1))` (R5): the number of bits that hold 0 to `CAP`. -/
def idxWidth (cap : Nat) : Nat := if cap = 0 then 0 else Nat.log2 cap + 1

/-- Register `IDX` (R29). -/
def idxWord (i : Instance) : BitVec (idxWidth i.cfg.cap) := BitVec.ofNat _ i.index

/-- Why a configuration is none of this hardware's. -/
inductive ConfigError where
  /-- `CAP = 0` (R5) -/
  | capacity
  /-- `ADDRESS` outside 8 to 119 (R6, U1) -/
  | address
  /-- policy code `0b11` (U8) -/
  | policy
deriving DecidableEq, Repr

/-- The configuration check: the model refuses, by name, what is not a configuration of this hardware (U1, U8). -/
def configure (cap : Nat) (address : SlaveAddr) (policy : BitVec 2) (filler : Byte) : Except ConfigError InstConfig :=
  match policyOfCode policy with
  | none => .error .policy
  | some p =>
    if ¬ (InstConfig.capLegal ⟨cap, address, p, filler⟩) then .error .capacity
    else if ¬ (InstConfig.addressLegal ⟨cap, address, p, filler⟩) then .error .address
    else .ok ⟨cap, address, p, filler⟩

end Sys2Proof.Machine
end

