-- ==== Sys2Proof/Machine/Ports.lean ====
section
/-!
DEFINITION. The port-level rendering of the outputs (R79, R80): each action of the trace is one output strobe, in trace order,
and `ev_done` ends the event. No timing (R147).
-/

namespace Sys2Proof.Machine

/-- `cb_kind` (R79). -/
def callbackCode : Callback → BitVec 2
  | .begin => 0b00
  | .read => 0b01
  | .write => 0b10
  | .endTx => 0b11

/-- One output strobe of the engine (R80). -/
inductive Strobe where
  /-- `dr_rd` -/
  | drRd
  /-- `dr_wr` with `dr_wdata` -/
  | drWr (wdata : Byte)
  /-- `clr_ov` -/
  | clrOv
  /-- `clr_wcol` -/
  | clrWcol
  /-- `scl_release` -/
  | sclRelease
  /-- `cb_req` with `cb_kind` and `cb_arg` -/
  | cbReq (kind : BitVec 2) (arg : Nat)
  /-- `ev_done` -/
  | evDone
deriving DecidableEq, Repr

/-- The width of `cb_arg` (R80). -/
def cbArgWidth (cap : Nat) : Nat := max 7 (idxWidth cap)

/-- The strobe of one action (R80): `cb_arg` is the address for `begin`, the length for `read`, 0 otherwise. -/
def strobeOf : Action → Strobe
  | .drr => .drRd
  | .drw v => .drWr v
  | .clrOv => .clrOv
  | .clrWcol => .clrWcol
  | .rel => .sclRelease
  | .beginCall a => .cbReq (callbackCode .begin) a.toNat
  | .readCall _ n => .cbReq (callbackCode .read) n
  | .writeCall => .cbReq (callbackCode .write) 0
  | .endCall => .cbReq (callbackCode .endTx) 0

/-- The strobes of one handled event (R80). -/
def strobesOf (actions : List Action) : List Strobe := actions.map strobeOf ++ [.evDone]

/-- `cfg_addr`, exported to the adapter's comparator continuously (R80, R108). -/
def cfgAddr (i : Instance) : SlaveAddr := i.cfg.address

/-- The adapter's matching equation (R108, R212): `AM a` for a received address `a` exactly when `a = address`. The engine
never runs it (R107). -/
def comparatorEvent (i : Instance) (received : SlaveAddr) : Option Instr :=
  if received = cfgAddr i then some (.am received) else none

end Sys2Proof.Machine
end

