-- ==== Sys2Proof/Machine/Sequences.lean ====
section
/-!
DEFINITION. Event sequences as inputs of the queue: the pseudo-operations (R82), the entry form `COL & e` (R92) and the textual
form of one event (R81). R81 and R82 give the event words. The environment the expansions below put around them is the model's own
choice (DESIGN CHOICE, Log 25, safe): the data register where the engine discards it or does not read it (R54 (b): any byte), the held
clock (R142: the adapter's affair), the condition bits, and the application's answers.
-/

namespace Sys2Proof.Machine

/-- Event `i` presented by an adapter whose data register holds `dr` and whose condition bits say what the event says
(R28), to an application that returns and answers `write()` with `fill`. The condition bits and the application are Log 25's choice. -/
def presentEvent (i : Instr) (dr : Byte) (fill : List Byte) : Presented where
  word := encode i
  dr := dr
  rxOverflow := match i with
    | .dweOv _ => true
    | .dr ov _ => ov
    | .col | .am _ | .dw | .dweWcol | .stop => false
  writeCollision := match i with
    | .dweOv wcol => wcol
    | .dweWcol => true
    | .dr _ wcol => wcol
    | .col | .am _ | .dw | .stop => false
  busCollision := match i with
    | .col => true
    | .am _ | .dw | .dweOv _ | .dweWcol | .dr _ _ | .stop => false
  app := { AppAnswer.quiet with fill := fill }

/-- An entry of one event. That it holds the clock, whatever the event, is Log 25's choice (R142 leaves it to the adapter). -/
def entryOf (k : Nat) (i : Instr) (dr : Byte) (fill : List Byte) : Input :=
  .entry k true (presentEvent i dr fill) none

/-- `COL & e` (R81, R92). That both events find the same byte `dr`, and that the entry holds the clock, is Log 25's choice. -/
def collisionWith (k : Nat) (i : Instr) (dr : Byte) (fill : List Byte) : Input :=
  .entry k true (presentEvent .col dr []) (some (presentEvent i dr fill))

/-- `WTX a, b1, ..., bn` (R82). The data register of the `AM` and the `STOP` is 0, Log 25's choice (R54 (b): any byte). -/
def wtx (k : Nat) (a : SlaveAddr) (bytes : List Byte) : List Input :=
  entryOf k (.am a) 0 [] :: (bytes.map fun b => entryOf k .dw b []) ++ [entryOf k .stop 0 []]

/-- `RTX a, n` (R82); `fill` is the application's answer to `write()`. The data register of every entry is 0 and no `DR` carries a flag
(R82: `DR`, word `0x201`); the data register is Log 25's choice. -/
def rtx (k : Nat) (a : SlaveAddr) (n : Nat) (fill : List Byte) : List Input :=
  entryOf k (.am a) 0 [] :: List.replicate n (entryOf k (.dr false false) 0 fill) ++ [entryOf k .stop 0 []]

/-- `WRTX a, b1, ..., bn, m` (R82): a write, a repeated start, a read. The data register of the `AM`s, the
`DR`s and the `STOP` is 0, Log 25's choice. -/
def wrtx (k : Nat) (a : SlaveAddr) (bytes : List Byte) (m : Nat) (fill : List Byte) : List Input :=
  (entryOf k (.am a) 0 [] :: bytes.map fun b => entryOf k .dw b []) ++
    (entryOf k (.am a) 0 [] :: List.replicate m (entryOf k (.dr false false) 0 fill)) ++ [entryOf k .stop 0 []]

/-- The flags of a DataByte in the notation of R81. -/
def flagText (ov wcol : Bool) : String :=
  if ov then (if wcol then "ov+wcol" else "ov") else if wcol then "wcol" else ""

/-- The textual form of an event (R81), numbers in decimal (R8); `b` is the byte `DrRead()` returns in a `DW`. -/
def eventText (i : Instr) (b : Byte) : String :=
  match i with
  | .col => "COL"
  | .am a => "AM " ++ toString a.toNat
  | .dw => "DW " ++ toString b.toNat
  | .dweOv wcol => "DWE " ++ flagText true wcol
  | .dweWcol => "DWE " ++ flagText false true
  | .dr ov wcol => if ov || wcol then "DR " ++ flagText ov wcol else "DR"
  | .stop => "STOP"

end Sys2Proof.Machine
end

