-- ==== Sys2Proof/Safety.lean ====
section
/-!
DEFINITION. What counts as a safe run, in the terms the statements use: the invariants (R33), the duties of the environment
(R210 to R216), what a callback must see (R156), and the counters read off an action trace (R97, R138, R140, R153).
-/

namespace Sys2Proof.Machine

/-! ### Invariants (R33) -/

/-- I1, I2, I3 of R33 for one instance, with its configuration legal (R5, R6) and its buffer in canonical form. -/
abbrev Instance.Inv (i : Instance) : Prop :=
  i.cfg.legal = true ∧ i.buf.wf i.cfg.cap ∧ i.index ≤ i.cfg.cap ∧
  (i.active = true → i.direction = .none → i.index = 0) ∧
  (i.active = true → i.direction ≠ .none → 1 ≤ i.index)

/-- Every instance meets R33, and there is one (R5: `N_INST >= 1`). -/
abbrev State.Inv (s : State) : Prop := s.slaves ≠ [] ∧ ∀ u ∈ s.slaves, u.inst.Inv

/-! ### The environment (R210 to R216, R224) -/

/-- Every callback returns within its limits (R215, R216, R224 (a)). -/
abbrev AppAnswer.cooperative (a : AppAnswer) : Prop :=
  a.onBegin = .returns ∧ a.onRead = .returns ∧ a.onWrite = .returns ∧ a.onEnd = .returns

/-- The answer `r` of an event in which callback `c` ends as `how`, if it does not keep its duties (U10, U12, U14): the run is stuck at
the call, the instance being as `stuck` says (R180, R215), or it is refused. -/
def CallEnd.Stops (how : CallEnd) (c : Callback) (r : Result State) (stuck : Slave → Prop) : Prop :=
  match how with
  | .returns => True
  | .neverReturns => ∃ v, r = .fault (.stuckInCallback c v) ∧ stuck v
  | .reenters => r = .refused (.reentrantHandle c)
  | .oversteps => r = .refused (.callbackOversteps c)

/-- What the adapter's registers say agrees with the event that reports them (R28, R30). -/
def reportAgrees (i : Instr) (e : Presented) : Bool :=
  match i with
  | .col => e.busCollision
  | .am _ => true
  | .dw => !e.rxOverflow && !e.writeCollision
  | .dweOv wcol => e.rxOverflow && e.writeCollision == wcol
  | .dweWcol => !e.rxOverflow && e.writeCollision
  | .dr ov wcol => e.rxOverflow == ov && e.writeCollision == wcol
  | .stop => true

/-- The address an `AM` carries is the instance's own (R212). -/
def addressFiltered (c : InstConfig) : Instr → Bool
  | .am a => a == c.address
  | .col | .dw | .dweOv _ | .dweWcol | .dr _ _ | .stop => true

/-- One event a conforming environment may present to an instance of configuration `c`: a legal word (R211), filtered
(R212), reported truly (R28), to an application that keeps its duties (R215, R216). -/
abbrev Presented.conforming (c : InstConfig) (e : Presented) : Prop :=
  e.app.cooperative ∧
  match decode e.word with
  | .error _ => False
  | .ok i => reportAgrees i e = true ∧ addressFiltered c i = true

/-- An AddressMatch event: the only one that opens a transaction (R98). -/
def isAm : Instr → Bool
  | .am _ => true
  | .col | .dw | .dweOv _ | .dweWcol | .dr _ _ | .stop => false

/-- A DataByte event. -/
def isData : Instr → Bool
  | .dw | .dweOv _ | .dweWcol | .dr _ _ => true
  | .col | .am _ | .stop => false

/-- "`AddressMatch, DataByte*, Stop`" (R98). -/
def wellFormedSequence : List Instr → Bool
  | [] => false
  | i :: rest => isAm i && rest.getLast? == some .stop && rest.dropLast.all isData

/-! ### Reading a trace -/

/-- A callback action (R11). -/
def Action.isCallback : Action → Bool
  | .beginCall _ | .readCall _ _ | .writeCall | .endCall => true
  | .drr | .drw _ | .clrOv | .clrWcol | .rel => false

/-- `begin` (R151). -/
def Action.isBegin : Action → Bool
  | .beginCall _ => true
  | .drr | .drw _ | .clrOv | .clrWcol | .rel | .readCall _ _ | .writeCall | .endCall => false

/-- `DRW(v)` (R55). -/
def Action.isDrw : Action → Bool
  | .drw _ => true
  | .drr | .clrOv | .clrWcol | .rel | .beginCall _ | .readCall _ _ | .writeCall | .endCall => false

/-- The payload and length of a `read` (R152, R153). -/
def Action.readArgs? : Action → Option (List Byte × Nat)
  | .readCall bytes n => some (bytes, n)
  | .drr | .drw _ | .clrOv | .clrWcol | .rel | .beginCall _ | .writeCall | .endCall => none

/-- The `read` callbacks of a trace, in call order (R153). -/
def readsOf (trace : List Action) : List (List Byte × Nat) := trace.filterMap Action.readArgs?

/-- The byte of a `DRW(v)`. -/
def Action.sentByte? : Action → Option Byte
  | .drw v => some v
  | .drr | .clrOv | .clrWcol | .rel | .beginCall _ | .readCall _ _ | .writeCall | .endCall => none

/-- The bytes a trace loads for transmission, in order (R55). -/
def sentBytes (trace : List Action) : List Byte := trace.filterMap Action.sentByte?

/-- Which callback an action invokes, if any (R79). -/
def Action.callback? : Action → Option Callback
  | .beginCall _ => some .begin
  | .readCall _ _ => some .read
  | .writeCall => some .write
  | .endCall => some .endTx
  | .drr | .drw _ | .clrOv | .clrWcol | .rel => none

/-- The callbacks a trace invokes, in order. -/
def callbacksOf (trace : List Action) : List Callback := trace.filterMap Action.callback?

/-- Every callback invocation the rules make, by operation and condition (R160). -/
def expectedCallbacks (i : Instr) (inst : Instance) : List Callback :=
  match i with
  | .col => []
  | .am _ => [.begin]
  | .dweOv _ | .dweWcol => []
  | .dw => if inst.active && inst.index == inst.cfg.cap && inst.cfg.policy == .triggerFlush then [.read] else []
  | .dr _ _ => if inst.active && inst.index == 0 then [.write] else []
  | .stop =>
    if inst.active then (if inst.direction = .write then [.read, .endTx] else [.endTx]) else []

/-- The cell a `DW` stores to, if any (R113 to R118): `index`, or cell 0 after a flush or an overwrite. -/
def receiveCell (inst : Instance) : Option Nat :=
  if inst.active then
    if inst.index = inst.cfg.cap then (if inst.cfg.policy = .ignore then none else some 0) else some inst.index
  else none

/-! ### Reading the queue -/

/-- A presented event whose word decodes to an event satisfying `p`. -/
def Presented.decodesTo (p : Instr → Bool) (e : Presented) : Bool :=
  match decode e.word with
  | .ok i => p i
  | .error _ => false

/-- The input delivers an `AM` to instance `k`, as its event or as its coincident event. -/
def opensAt (k : Nat) : Input → Bool
  | .entry j _ e co => j == k && (e.decodesTo isAm || (co.map (Presented.decodesTo isAm)).getD false)
  | .reset _ => false

/-- Whatever the input delivers to instance `k` is one DataByte event (R98). -/
def onlyDataAt (k : Nat) : Input → Bool
  | .entry j _ e co => j != k || (e.decodesTo isData && co.isNone)
  | .reset j => j != k

/-- What the engine guarantees at the moment of each call (R156), of the instance the callback belongs to. -/
def CallView.consistent (c : CallView) : Bool :=
  c.inst.active &&
  match c.call with
  | .beginCall _ => c.inst.index == 0 && c.inst.direction == .none
  | .readCall bytes n =>
    c.inst.index == n && c.inst.direction == .write && decide (1 ≤ n) && decide (n ≤ c.inst.cfg.cap)
      && c.inst.buf.payload n == some bytes
  | .writeCall => c.inst.index == 0 && c.inst.direction == .read
  | .endCall => decide (c.inst.index ≤ c.inst.cfg.cap)
  | .drr | .drw _ | .clrOv | .clrWcol | .rel => false

/-- Of all transactions an instance opened, those it closed and the one it may have open (R138): `end` calls, plus one if
`active`, never exceed `begin` calls. -/
abbrev Slave.Paired (u : Slave) : Prop :=
  u.trace.countP (· == .endCall) + u.inst.active.toNat ≤ u.trace.countP Action.isBegin

/-- The `read` callbacks of a pure write transaction of the bytes `bs` (R119), by policy: groups of `CAP` and a last group
of 1 to `CAP`; the first `CAP`; the last `((n-1) mod CAP) + 1`. -/
def expectedReads (p : Policy) (cap : Nat) (bs : List Byte) : List (List Byte × Nat) :=
  match p with
  | .triggerFlush =>
    (List.range ((bs.length - 1) / cap + 1)).map fun j =>
      ((bs.drop (j * cap)).take cap, min cap (bs.length - j * cap))
  | .ignore => [(bs.take cap, min bs.length cap)]
  | .overwrite =>
    let r := (bs.length - 1) % cap + 1
    [(bs.drop (bs.length - r), r)]

end Sys2Proof.Machine
end

