-- ==== Sys2Proof/Certificates/Slice0/Obligations.lean ====
section
/-!
DEFINITION. The statements for the provers. Each docstring names the rule it formalises. `current? s = some u` says that `u` is the
instance whose event is handled; `.next (putCurrent s v)` says that `v` replaces it and that NOTHING else of the state changes: no
other instance, no pending input. A register of `v` that a statement does not name is the same as in `u` when the statement writes
`{ u.inst with … }`. The data register after a `DrRead()` is a free value: `dr := v.adapter.dr` leaves it open.
-/

open Sys2Proof Sys2Proof.Machine

/-! ### Encoding (30_encoding.md) -/

/-- R74, R75: decoding the word of an event gives the event back, for every event and every operand. -/
def Obligations.DecodeEncodeRoundTrip : Prop :=
  ∀ i : Instr, i.wellFormed = true ∧ decode (encode i) = .ok i

/-- R74, R75: a legal word has one meaning, and the event's word is that word. -/
def Obligations.LegalWordHasOneMeaning : Prop :=
  ∀ (w : EventWord) (i : Instr), decode w = .ok i → encode i = w

/-- R74, R75: the decoder agrees with the opcode table: the word of an event selects that event's row and no other row of the
table, and a word the decoder rejects selects none. -/
def Obligations.DecoderFollowsOpcodeTable : Prop :=
  ∀ w : EventWord,
    (∀ i, decode w = .ok i →
      opcodeRow i ∈ opcodeTable ∧ ∀ r ∈ opcodeTable, r.selects w = true ↔ r = opcodeRow i) ∧
    (∀ why, decode w = .error why → ∀ r ∈ opcodeTable, r.selects w = false)

/-- R76: the reserved words, counted by kind, 886 in all, and what the machine does with an event whose word is one: it refuses. -/
def Obligations.ReservedWordsAreRefused : Prop :=
  ((List.range 1024).countP fun w => decide (decode (BitVec.ofNat 10 w) = .error .collisionPayload)) = 255 ∧
  ((List.range 1024).countP fun w => decide (decode (BitVec.ofNat 10 w) = .error .addressBit7)) = 128 ∧
  ((List.range 1024).countP fun w => decide (decode (BitVec.ofNat 10 w) = .error .dataBits)) = 248 ∧
  ((List.range 1024).countP fun w => decide (decode (BitVec.ofNat 10 w) = .error .stopPayload)) = 255 ∧
  ∀ (s : State) (k : Nat) (st : Bool) (e : Presented) (co : Option Presented) (rest : List Input) (u : Slave)
    (why : DecodeError),
    s.pending = .entry k st e co :: rest → s.slaves[k]? = some u → decode e.word = .error why →
    step s = .refused (.reservedWord e.word why)

/-- R75, 95_test_vectors.md part 4: words written out from the spec decode to the events the spec names. -/
def Obligations.SpecWordsDecode : Prop :=
  decode 0x000 = .ok .col ∧ decode 0x100 = .ok (.am 0x00) ∧ decode 0x12A = .ok (.am 0x2A) ∧
  decode 0x17F = .ok (.am 0x7F) ∧ decode 0x200 = .ok .dw ∧ decode 0x201 = .ok (.dr false false) ∧
  decode 0x202 = .ok (.dweOv false) ∧ decode 0x203 = .ok (.dr true false) ∧ decode 0x204 = .ok .dweWcol ∧
  decode 0x205 = .ok (.dr false true) ∧ decode 0x206 = .ok (.dweOv true) ∧ decode 0x207 = .ok (.dr true true) ∧
  decode 0x300 = .ok .stop

/-! ### One step (40_dispatch.md, 60_exceptions.md) -/

/-- R60, R90, R180: when the next pending entry carries one event whose word decodes to `i`, the step is `exec` of `i` on that
entry's instance, the entry consumed. That accepting the entry replaces the data register, the condition bits and the application's
answers by what the entry carries (Log 6, Log 8), and holds the clock if the entry says so (Log 7), is the model's own choice. Nothing
else changes. -/
def Obligations.StepHandlesDecodedEvent : Prop :=
  ∀ (s : State) (k : Nat) (st : Bool) (e : Presented) (rest : List Input) (u : Slave) (i : Instr),
    s.pending = .entry k st e none :: rest → s.slaves[k]? = some u → decode e.word = .ok i →
    step s = exec i
      { slaves := s.slaves.set k
          { u with
            adapter := ⟨e.dr, u.adapter.sclHold || st, e.rxOverflow, e.writeCollision, e.busCollision⟩
            app := e.app }
        cur := k
        pending := rest }

/-- R92: an entry `COL & e` is exactly the two-event sequence `COL`, `e`, the clock being held at most once for both: its first
step is that of the sequence in which `e` holds no clock. -/
def Obligations.CoincidentEntryIsTwoEvents : Prop :=
  ∀ (s : State) (k : Nat) (st : Bool) (c e : Presented) (rest : List Input) (j : Instr),
    s.pending = .entry k st c (some e) :: rest → decode c.word = .ok .col → decode e.word = .ok j → j ≠ .col →
    step s = step { s with pending := .entry k st c none :: .entry k false e none :: rest }

/-- R179 (a), D9: "no other two events can coincide": an entry whose first event is not a Collision, or whose coincident event is one.
That the model refuses such an entry is its own inference (Log 16). -/
def Obligations.OtherCoincidencesAreRefused : Prop :=
  ∀ (s : State) (k : Nat) (st : Bool) (c e : Presented) (rest : List Input) (u : Slave) (i j : Instr),
    s.pending = .entry k st c (some e) :: rest → s.slaves[k]? = some u → decode c.word = .ok i →
    decode e.word = .ok j → i ≠ .col ∨ j = .col →
    step s = .refused (.illegalCoincidence c.word e.word)

/-- R35 ("after reset the engine waits for the first event"): with no event pending a step changes nothing. -/
def Obligations.EngineWaitsForEvents : Prop :=
  ∀ s : State, s.pending = [] → step s = .next s

/-- R60: inputs are taken in the order delivered, one a step, none skipped: what stays pending is the rest of the queue, behind the
coincident event of the entry if it has one. -/
def Obligations.InputsAreTakenInOrder : Prop :=
  ∀ (s t : State) (x : Input) (rest : List Input), s.pending = x :: rest → step s = .next t →
    t.pending =
      (match x with
        | .entry k _ _ (some e) => .entry k false e none :: rest
        | .entry _ _ _ none => rest
        | .reset _ => rest)

/-! ### Reset (10_state.md R35, 70_reset_and_hazards.md R200) -/

/-- R35: every instance after reset has its configuration, is idle, with `direction = None` and `index = 0`, and has a buffer of
`CAP` cells (of any content); there are `N_INST` of them, and the engine waits for the first event. -/
def Obligations.ResetValues : Prop :=
  State.reset.slaves.length = Config.nInst ∧ step State.reset = .next State.reset ∧
  ∀ (k : Nat) (u : Slave), State.reset.slaves[k]? = some u →
    u.inst.cfg = Config.instConfig k ∧ u.inst.active = false ∧ u.inst.direction = .none ∧ u.inst.index = 0 ∧
    u.inst.buf.wf u.inst.cfg.cap ∧ u.trace = []

/-- R33, R6: the invariant holds after reset, whatever the open parameters are. -/
def Obligations.ResetMeetsInvariant : Prop := State.reset.Inv

/-- R200, R201: a reset between two events loads the values of R35, redraws the buffer, keeps the configuration and emits no action;
a transaction open at that moment is abandoned without `read` and without `end`. That the adapter and the application keep their
state is the model's choice (Log 12). -/
def Obligations.ResetInputLoadsResetValues : Prop :=
  ∀ (s : State) (k : Nat) (rest : List Input) (u : Slave),
    s.pending = .reset k :: rest → s.slaves[k]? = some u →
    ∃ v, step s = .next { s with slaves := s.slaves.set k v, pending := rest } ∧
      v.inst.cfg = u.inst.cfg ∧ v.inst.active = false ∧ v.inst.direction = .none ∧ v.inst.index = 0 ∧
      v.inst.buf.wf u.inst.cfg.cap ∧ v.trace = u.trace ∧ v.calls = u.calls ∧ v.adapter = u.adapter ∧ v.app = u.app

/-! ### COL and AM (41_collision.md, 42_address_match.md) -/

/-- R100, R102, R103 (the spec's decisions D5, D9, D11): `COL` in any context: the clock is released first, the data register consumed, the transaction abandoned; no
callback, no clear command, no other register written. -/
def Obligations.CollisionEffect : Prop :=
  encode .col = 0x000 ∧
  ∀ (s : State) (u : Slave), current? s = some u →
    ∃ v, exec .col s = .next (putCurrent s v) ∧
      v.inst = { u.inst with active := false } ∧
      v.trace = u.trace ++ [.rel, .drr] ∧ v.calls = u.calls ∧ v.app = u.app ∧
      v.adapter = { u.adapter with sclHold := false, dr := v.adapter.dr }

/-- R105, R106, R107, R109 (the spec's decisions D8, for `direction`, and D1, for the word): `AM addr` in any context, for every 7-bit
address: the data register is consumed, `index`, `direction` and `active` written, then `begin(addr)` called, then the clock released;
`buf` and the configuration keep their content. -/
def Obligations.AddressMatchEffect : Prop :=
  (∀ addr : SlaveAddr, (encode (.am addr)).toNat = 0x100 + addr.toNat) ∧
  ∀ (s : State) (u : Slave) (addr : SlaveAddr), current? s = some u → u.app.onBegin = .returns →
    ∃ v, exec (.am addr) s = .next (putCurrent s v) ∧
      v.inst = { u.inst with active := true, index := 0, direction := .none } ∧
      v.trace = u.trace ++ [.drr, .beginCall addr, .rel] ∧
      v.calls = u.calls ++ [⟨.beginCall addr, v.inst, u.adapter.sclHold⟩] ∧ v.app = u.app ∧
      v.adapter = { u.adapter with sclHold := false, dr := v.adapter.dr }

/-! ### DWE and DW (43_receive.md) -/

/-- R110 (the spec's decisions D6, D8, D11): a flagged byte in any context is consumed and discarded, the flagged conditions are cleared, overflow first, and nothing
else of the instance changes; no callback, whatever the buffer holds. -/
def Obligations.FlaggedByteIsDiscarded : Prop :=
  encode (.dweOv false) = 0x202 ∧ encode .dweWcol = 0x204 ∧ encode (.dweOv true) = 0x206 ∧
  ∀ (s : State) (u : Slave), current? s = some u →
    (∀ wcol : Bool, ∃ v, exec (.dweOv wcol) s = .next (putCurrent s v) ∧ v.inst = u.inst ∧
      v.trace = u.trace ++ ([.drr, .clrOv] ++ (if wcol then [.clrWcol] else []) ++ [.rel]) ∧
      v.calls = u.calls ∧ v.app = u.app ∧
      v.adapter = { u.adapter with
        sclHold := false, dr := v.adapter.dr, rxOverflow := false,
        writeCollision := u.adapter.writeCollision && !wcol }) ∧
    (∃ v, exec .dweWcol s = .next (putCurrent s v) ∧ v.inst = u.inst ∧
      v.trace = u.trace ++ [.drr, .clrWcol, .rel] ∧ v.calls = u.calls ∧ v.app = u.app ∧
      v.adapter = { u.adapter with sclHold := false, dr := v.adapter.dr, writeCollision := false })

/-- R111, R113: a `DW` mid-transaction below `CAP`: the byte of the data register goes to the cell `index` named, every other cell
keeps its value, `index` goes up by one, `direction` becomes `Write`; no callback. -/
def Obligations.ReceivedByteIsAppended : Prop :=
  encode .dw = 0x200 ∧
  ∀ (s : State) (u : Slave), current? s = some u → u.inst.active = true → u.inst.buf.wf u.inst.cfg.cap →
    u.inst.index < u.inst.cfg.cap →
    ∃ v, exec .dw s = .next (putCurrent s v) ∧
      v.inst = { u.inst with direction := .write, index := u.inst.index + 1, buf := v.inst.buf } ∧
      v.inst.buf.wf u.inst.cfg.cap ∧ v.inst.buf.read? u.inst.index = some u.adapter.dr ∧
      (∀ a, a ≠ u.inst.index → v.inst.buf.read? a = u.inst.buf.read? a) ∧
      v.trace = u.trace ++ [.drr, .rel] ∧ v.calls = u.calls ∧ v.app = u.app ∧
      v.adapter = { u.adapter with sclHold := false, dr := v.adapter.dr }

/-- R115, R120: a `DW` that finds the buffer full under `TriggerFlush`: `read` gets the `CAP` bytes accumulated, without the new one,
while `index = CAP` and `direction = Write`; then the new byte goes to cell 0 and `index` is 1. -/
def Obligations.FullBufferTriggersFlush : Prop :=
  ∀ (s : State) (u : Slave), current? s = some u → u.inst.active = true → u.inst.buf.wf u.inst.cfg.cap →
    1 ≤ u.inst.cfg.cap → u.inst.index = u.inst.cfg.cap → u.inst.cfg.policy = .triggerFlush →
    u.app.onRead = .returns →
    ∃ v bytes, exec .dw s = .next (putCurrent s v) ∧
      bytes.length = u.inst.cfg.cap ∧ (∀ j, j < u.inst.cfg.cap → bytes[j]? = u.inst.buf.read? j) ∧
      v.inst = { u.inst with direction := .write, index := 1, buf := v.inst.buf } ∧
      v.inst.buf.wf u.inst.cfg.cap ∧ v.inst.buf.read? 0 = some u.adapter.dr ∧
      (∀ a, a ≠ 0 → v.inst.buf.read? a = u.inst.buf.read? a) ∧
      v.trace = u.trace ++ [.drr, .readCall bytes u.inst.cfg.cap, .rel] ∧
      v.calls = u.calls ++
        [⟨.readCall bytes u.inst.cfg.cap, { u.inst with direction := .write }, u.adapter.sclHold⟩] ∧
      v.app = u.app ∧ v.adapter = { u.adapter with sclHold := false, dr := v.adapter.dr }

/-- R116: a `DW` that finds the buffer full under `Ignore`: the byte is consumed and dropped; `buf` and `index` stay, `direction`
becomes `Write`, the clock is released; no callback. -/
def Obligations.FullBufferIgnoresByte : Prop :=
  ∀ (s : State) (u : Slave), current? s = some u → u.inst.active = true →
    u.inst.index = u.inst.cfg.cap → u.inst.cfg.policy = .ignore →
    ∃ v, exec .dw s = .next (putCurrent s v) ∧
      v.inst = { u.inst with direction := .write } ∧
      v.trace = u.trace ++ [.drr, .rel] ∧ v.calls = u.calls ∧ v.app = u.app ∧
      v.adapter = { u.adapter with sclHold := false, dr := v.adapter.dr }

/-- R117: a `DW` that finds the buffer full under `Overwrite`: the new byte goes to cell 0, `index` is 1, the other cells keep the
older bytes; no callback. -/
def Obligations.FullBufferIsOverwritten : Prop :=
  ∀ (s : State) (u : Slave), current? s = some u → u.inst.active = true → u.inst.buf.wf u.inst.cfg.cap →
    1 ≤ u.inst.cfg.cap → u.inst.index = u.inst.cfg.cap → u.inst.cfg.policy = .overwrite →
    ∃ v, exec .dw s = .next (putCurrent s v) ∧
      v.inst = { u.inst with direction := .write, index := 1, buf := v.inst.buf } ∧
      v.inst.buf.wf u.inst.cfg.cap ∧ v.inst.buf.read? 0 = some u.adapter.dr ∧
      (∀ a, a ≠ 0 → v.inst.buf.read? a = u.inst.buf.read? a) ∧
      v.trace = u.trace ++ [.drr, .rel] ∧ v.calls = u.calls ∧ v.app = u.app ∧
      v.adapter = { u.adapter with sclHold := false, dr := v.adapter.dr }

/-- R118 (the spec's decision D6): a `DW` while idle: the byte is consumed and discarded, the clock released; no state written, no callback. -/
def Obligations.IdleReceiveDiscards : Prop :=
  ∀ (s : State) (u : Slave), current? s = some u → u.inst.active = false →
    ∃ v, exec .dw s = .next (putCurrent s v) ∧ v.inst = u.inst ∧
      v.trace = u.trace ++ [.drr, .rel] ∧ v.calls = u.calls ∧ v.app = u.app ∧
      v.adapter = { u.adapter with sclHold := false, dr := v.adapter.dr }

/-! ### DR (44_transmit.md) -/

/-- R125, R126, R131: the first outgoing byte (`index = 0` on entry): `write()` is called with `direction = Read`, the application's
content replaces the buffer (a cell it left alone keeps its byte), and cell 0 of the new content is transmitted. -/
def Obligations.FirstByteCallsWrite : Prop :=
  ∀ (s : State) (u : Slave) (ov wcol : Bool), current? s = some u → u.inst.active = true →
    u.inst.buf.wf u.inst.cfg.cap → 1 ≤ u.inst.cfg.cap → u.inst.index = 0 → u.app.onWrite = .returns →
    ∃ v b, exec (.dr ov wcol) s = .next (putCurrent s v) ∧
      v.inst = { u.inst with direction := .read, index := 1, buf := v.inst.buf } ∧
      v.inst.buf.wf u.inst.cfg.cap ∧
      (∀ a, v.inst.buf.read? a = (u.inst.buf.read? a).map fun old => (u.app.fill[a]?).getD old) ∧
      v.inst.buf.read? 0 = some b ∧
      v.trace = u.trace ++ [.writeCall, .drw b, .rel] ∧
      v.calls = u.calls ++ [⟨.writeCall, { u.inst with direction := .read }, u.adapter.sclHold⟩] ∧
      v.app = u.app ∧ v.draws = u.draws ∧ v.adapter = { u.adapter with sclHold := false, dr := b }

/-- R125, R126, R127: a later outgoing byte, `0 < index < CAP`: `buf[index]` is loaded and `index` goes up by one; no callback, no
clear command, whatever the flags. -/
def Obligations.LaterByteIsTransmitted : Prop :=
  ∀ (s : State) (u : Slave) (ov wcol : Bool), current? s = some u → u.inst.active = true →
    u.inst.buf.wf u.inst.cfg.cap → 0 < u.inst.index → u.inst.index < u.inst.cfg.cap →
    ∃ v b, exec (.dr ov wcol) s = .next (putCurrent s v) ∧
      u.inst.buf.read? u.inst.index = some b ∧
      v.inst = { u.inst with direction := .read, index := u.inst.index + 1 } ∧
      v.trace = u.trace ++ [.drw b, .rel] ∧ v.calls = u.calls ∧ v.app = u.app ∧ v.draws = u.draws ∧
      v.adapter = { u.adapter with sclHold := false, dr := b }

/-- R128 (the spec's decision D7): past the end (`index = CAP`) the filler is transmitted, `index` stays, no cell is read and no callback invoked. -/
def Obligations.FillerPastCapacity : Prop :=
  ∀ (s : State) (u : Slave) (ov wcol : Bool), current? s = some u → u.inst.active = true →
    1 ≤ u.inst.cfg.cap → u.inst.index = u.inst.cfg.cap →
    ∃ v, exec (.dr ov wcol) s = .next (putCurrent s v) ∧
      v.inst = { u.inst with direction := .read } ∧
      v.trace = u.trace ++ [.drw u.inst.cfg.txFiller, .rel] ∧ v.calls = u.calls ∧ v.app = u.app ∧
      v.draws = u.draws ∧ v.adapter = { u.adapter with sclHold := false, dr := u.inst.cfg.txFiller }

/-- R130 (the spec's decision D6): a `DR` while idle only releases the clock: nothing is loaded, no state written, no callback. -/
def Obligations.IdleTransmitLoadsNothing : Prop :=
  ∀ (s : State) (u : Slave) (ov wcol : Bool), current? s = some u → u.inst.active = false →
    exec (.dr ov wcol) s =
      .next (putCurrent s { u with trace := u.trace ++ [.rel], adapter := { u.adapter with sclHold := false } })

/-- R127: the flags of a `DR` change nothing, in any state: they are neither tested nor cleared, and no clear command is issued. -/
def Obligations.TransmitIgnoresFlags : Prop :=
  encode (.dr false false) = 0x201 ∧ encode (.dr true false) = 0x203 ∧ encode (.dr false true) = 0x205 ∧
  encode (.dr true true) = 0x207 ∧
  (∀ (s : State) (ov wcol : Bool), exec (.dr ov wcol) s = exec (.dr false false) s) ∧
  ∀ (s t : State) (u v : Slave) (ov wcol : Bool), current? s = some u → exec (.dr ov wcol) s = .next t →
    current? t = some v →
    v.trace.count .clrOv = u.trace.count .clrOv ∧ v.trace.count .clrWcol = u.trace.count .clrWcol ∧
    v.adapter.rxOverflow = u.adapter.rxOverflow ∧ v.adapter.writeCollision = u.adapter.writeCollision

/-! ### STOP (45_stop.md) -/

/-- R135: a `STOP` mid-transaction. After received bytes (`direction = Write`): `read` gets `buf[0..index-1]` with length `index`, then
`end` is called. With `direction` `Read` or `None`: `end` and no `read`. Both calls find the transaction still open; then the instance is
idle and the clock is released; `index`, `direction` and `buf` stay. -/
def Obligations.StopClosesTransaction : Prop :=
  encode .stop = 0x300 ∧
  (∀ (s : State) (u : Slave), current? s = some u → u.inst.active = true → u.inst.direction = .write →
    u.inst.buf.wf u.inst.cfg.cap → u.inst.index ≤ u.inst.cfg.cap → u.app.onRead = .returns →
    u.app.onEnd = .returns →
    ∃ v bytes, exec .stop s = .next (putCurrent s v) ∧
      bytes.length = u.inst.index ∧ (∀ j, j < u.inst.index → bytes[j]? = u.inst.buf.read? j) ∧
      v.inst = { u.inst with active := false } ∧
      v.trace = u.trace ++ [.readCall bytes u.inst.index, .endCall, .rel] ∧
      v.calls = u.calls ++
        [⟨.readCall bytes u.inst.index, u.inst, u.adapter.sclHold⟩, ⟨.endCall, u.inst, u.adapter.sclHold⟩] ∧
      v.app = u.app ∧ v.draws = u.draws ∧ v.adapter = { u.adapter with sclHold := false }) ∧
  ∀ (s : State) (u : Slave), current? s = some u → u.inst.active = true → u.inst.direction ≠ .write →
    u.app.onEnd = .returns →
    ∃ v, exec .stop s = .next (putCurrent s v) ∧
      v.inst = { u.inst with active := false } ∧
      v.trace = u.trace ++ [.endCall, .rel] ∧
      v.calls = u.calls ++ [⟨.endCall, u.inst, u.adapter.sclHold⟩] ∧
      v.app = u.app ∧ v.draws = u.draws ∧ v.adapter = { u.adapter with sclHold := false }

/-- R137 (the spec's decision D6): a `STOP` while idle only releases the clock. -/
def Obligations.IdleStopDoesNothing : Prop :=
  ∀ (s : State) (u : Slave), current? s = some u → u.inst.active = false →
    exec .stop s =
      .next (putCurrent s { u with trace := u.trace ++ [.rel], adapter := { u.adapter with sclHold := false } })

/-! ### Completion and stops (40_dispatch.md R94, 93_implementation_defined.md) -/

/-- R94: in every state that meets the invariant, with an application whose callbacks return (R224 (a)), every event completes, and
the instance meets the invariant again. -/
def Obligations.EveryEventCompletes : Prop :=
  ∀ (s : State) (u : Slave) (i : Instr), s.Inv → current? s = some u → u.app.cooperative →
    ∃ v, exec i s = .next (putCurrent s v) ∧ v.inst.Inv

/-- R51: no event ever accesses a cell outside the buffer, whatever the application does. -/
def Obligations.BufferAccessesAreInBounds : Prop :=
  ∀ (s : State) (i : Instr) (cell : Nat), s.Inv → exec i s ≠ .fault (.bufferBounds cell)

/-- U10, U12, U14 (R159, R180, R182, R215, R216; refusal and fault are Log 9): at every call site of R160 (the `begin` of an `AM`, the
`read` of a flush in a `DW`, the `write` of a `DR`, the `read` and the `end` of a `STOP`), a callback that never returns leaves the run
stuck at that call with every earlier action done and the clock as held as it was; one that enters `handle` or oversteps its limits is
refused. -/
def Obligations.UndutifulCallbacksStopTheRun : Prop :=
  ∀ (s : State) (u : Slave), current? s = some u →
    (∀ addr, u.app.onBegin.Stops .begin (exec (.am addr) s) fun v =>
      v.inst = { u.inst with active := true, index := 0, direction := .none } ∧ v.trace = u.trace ++ [.drr] ∧
      v.calls = u.calls ∧ v.app = u.app ∧ v.adapter = { u.adapter with dr := v.adapter.dr }) ∧
    (u.inst.active = true → u.inst.buf.wf u.inst.cfg.cap → u.inst.index = u.inst.cfg.cap →
      u.inst.cfg.policy = .triggerFlush → u.app.onRead.Stops .read (exec .dw s) fun v =>
      v.inst = { u.inst with direction := .write } ∧ v.trace = u.trace ++ [.drr] ∧
      v.calls = u.calls ∧ v.app = u.app ∧ v.adapter = { u.adapter with dr := v.adapter.dr }) ∧
    (∀ ov wcol, u.inst.active = true → u.inst.index = 0 → u.app.onWrite.Stops .write (exec (.dr ov wcol) s) fun v =>
      v = { u with inst := { u.inst with direction := .read } }) ∧
    (u.inst.active = true → u.inst.direction = .write → u.inst.buf.wf u.inst.cfg.cap → u.inst.index ≤ u.inst.cfg.cap →
      u.app.onRead.Stops .read (exec .stop s) fun v => v = u) ∧
    (u.inst.active = true → u.inst.direction = .write → u.inst.buf.wf u.inst.cfg.cap → u.inst.index ≤ u.inst.cfg.cap →
      u.app.onRead = .returns → u.app.onEnd.Stops .endTx (exec .stop s) fun v =>
      ∃ bytes, u.inst.buf.payload u.inst.index = some bytes ∧ v.trace = u.trace ++ [.readCall bytes u.inst.index] ∧
        v.inst = u.inst ∧ v.app = u.app ∧ v.adapter = u.adapter) ∧
    (u.inst.active = true → u.inst.direction ≠ .write →
      u.app.onEnd.Stops .endTx (exec .stop s) fun v => v = u)

/-- R180, R215, R144: whenever a step is stuck in a callback, it is in the event at the head of the queue, with an open transaction,
and the clock has not been released since the event was accepted: it is held if it was held before or the entry holds it. -/
def Obligations.StuckCallbackHoldsClock : Prop :=
  ∀ (s : State) (c : Callback) (v : Slave), step s = .fault (.stuckInCallback c v) →
    ∃ k st e co rest u acts, s.pending = .entry k st e co :: rest ∧ s.slaves[k]? = some u ∧
      v.adapter.sclHold = (u.adapter.sclHold || st) ∧ v.inst.active = true ∧ v.app = e.app ∧
      v.trace = u.trace ++ acts ∧ .rel ∉ acts

/-! ### Frames -/

/-- R190, R7, R176: whatever the event, no other instance, no pending input, no configuration register changes, and the trace and the
record of calls only grow. -/
def Obligations.EventTouchesOneInstance : Prop :=
  ∀ (i : Instr) (s t : State), exec i s = .next t →
    t.cur = s.cur ∧ t.pending = s.pending ∧ t.slaves.length = s.slaves.length ∧
    (∀ k, k ≠ s.cur → t.slaves[k]? = s.slaves[k]?) ∧
    ∃ u v, current? s = some u ∧ current? t = some v ∧ v.inst.cfg = u.inst.cfg ∧ v.app = u.app ∧
      (∃ acts, v.trace = u.trace ++ acts) ∧ ∃ views, v.calls = u.calls ++ views

/-- R100, R105, R110, R135: frame of the events that store no byte: `COL`, `AM`, `DWE.OV`, `DWE.WCOL` and `STOP` leave every cell of
`buf` unchanged; all but `AM` leave `index` and `direction` unchanged; the two `DWE` leave `active` unchanged too. -/
def Obligations.NonStoringEventsFrame : Prop :=
  ∀ (i : Instr) (s t : State) (u v : Slave), current? s = some u → exec i s = .next t → current? t = some v →
    (i = .col ∨ isAm i = true ∨ (∃ w, i = .dweOv w) ∨ i = .dweWcol ∨ i = .stop → ∀ a, v.inst.buf.read? a = u.inst.buf.read? a) ∧
    (i = .col ∨ (∃ w, i = .dweOv w) ∨ i = .dweWcol ∨ i = .stop →
      v.inst.index = u.inst.index ∧ v.inst.direction = u.inst.direction) ∧
    ((∃ w, i = .dweOv w) ∨ i = .dweWcol → v.inst.active = u.inst.active)

/-- R113, R115, R116, R117, R118: frame of `DW`: every cell but the one it stores to (`receiveCell`: `index`, or cell 0 after a flush or
an overwrite, or none) reads as before, and `active` is unchanged. -/
def Obligations.ReceiveFrame : Prop :=
  ∀ (s t : State) (u v : Slave), current? s = some u → exec .dw s = .next t → current? t = some v →
    v.inst.active = u.inst.active ∧
    ∀ a, receiveCell u.inst ≠ some a → v.inst.buf.read? a = u.inst.buf.read? a

/-- R125, R126, R128, R130: frame of `DR`: the engine itself stores no byte: every cell reads as before, but for what the application
wrote in a `write()` (only with `index = 0` on entry, mid-transaction); `active` is unchanged. -/
def Obligations.TransmitFrame : Prop :=
  ∀ (s t : State) (u v : Slave) (ov wcol : Bool), current? s = some u → exec (.dr ov wcol) s = .next t →
    current? t = some v →
    v.inst.active = u.inst.active ∧
    (u.inst.active = false ∨ u.inst.index ≠ 0 → ∀ a, v.inst.buf.read? a = u.inst.buf.read? a) ∧
    (∀ a, u.app.fill.length ≤ a → v.inst.buf.read? a = u.inst.buf.read? a)

/-- R178, R103, R127: the adapter's condition bits: the bus-collision condition is changed by no event; the receive-overflow condition
only by `DWE.OV`, and the write-collision condition only by a `DWE` that carries it, which clear them; the data register by no `STOP`. -/
def Obligations.ConditionBitsFrame : Prop :=
  ∀ (i : Instr) (s t : State) (u v : Slave), current? s = some u → exec i s = .next t → current? t = some v →
    v.adapter.busCollision = u.adapter.busCollision ∧
    v.adapter.rxOverflow = (match i with | .dweOv _ => false | _ => u.adapter.rxOverflow) ∧
    v.adapter.writeCollision = (match i with | .dweOv true => false | .dweWcol => false | _ => u.adapter.writeCollision) ∧
    (i = .stop → v.adapter.dr = u.adapter.dr)

/-! ### Rules of the whole engine -/

/-- R140, R102: every event releases the clock exactly once, `COL` as its first action, every other event as its last; afterwards the
clock is not held. -/
def Obligations.ClockReleasedExactlyOnce : Prop :=
  ∀ (i : Instr) (s t : State) (u v : Slave), current? s = some u → exec i s = .next t → current? t = some v →
    v.adapter.sclHold = false ∧
    ∃ acts, v.trace = u.trace ++ acts ∧ acts.count .rel = 1 ∧
      (i = .col → acts.head? = some .rel) ∧ (i ≠ .col → acts.getLast? = some .rel)

/-- R97, D11: the actions of one event are bounded: one `DrRead()` in `COL`, `AM`, `DWE` and `DW` and none in `DR` and `STOP`; at most
one `DrWrite` and one clear of each condition; at most two callbacks, two only in `STOP`. -/
def Obligations.ActionsPerEventAreBounded : Prop :=
  ∀ (i : Instr) (s t : State) (u v : Slave), current? s = some u → exec i s = .next t → current? t = some v →
    ∃ acts, v.trace = u.trace ++ acts ∧
      acts.count .drr = (match i with | .dr _ _ => 0 | .stop => 0 | _ => 1) ∧
      acts.countP Action.isDrw ≤ 1 ∧ acts.count .clrOv ≤ 1 ∧ acts.count .clrWcol ≤ 1 ∧
      acts.countP Action.isCallback ≤ 2 ∧ (acts.countP Action.isCallback = 2 → i = .stop)

/-- R98, R26: the phase machine: `AM` opens, `COL` and `STOP` close, the DataByte events leave the phase as it is. -/
def Obligations.PhaseTransitions : Prop :=
  ∀ (i : Instr) (s t : State) (u v : Slave), current? s = some u → exec i s = .next t → current? t = some v →
    v.inst.active =
      (match i with
        | .am _ => true
        | .col => false
        | .stop => false
        | .dw => u.inst.active
        | .dweOv _ => u.inst.active
        | .dweWcol => u.inst.active
        | .dr _ _ => u.inst.active)

/-- R160: the callbacks an event invokes, in order, are those of the table of R160, read off the registers at entry. -/
def Obligations.CallbacksFollowTable : Prop :=
  ∀ (i : Instr) (s t : State) (u v : Slave), current? s = some u → exec i s = .next t → current? t = some v →
    callbacksOf v.trace = callbacksOf u.trace ++ expectedCallbacks i u.inst

/-- R156, R152, R153, R144: at the moment of every call the registers are as the table of R156 says, the length of a `read` is between
1 and `CAP` and its payload is `buf[0..n-1]`, and the clock is held if it was held when the event was accepted. -/
def Obligations.CallbacksSeeConsistentState : Prop :=
  ∀ (i : Instr) (s t : State) (u v : Slave), s.Inv → current? s = some u → exec i s = .next t → current? t = some v →
    ∃ views, v.calls = u.calls ++ views ∧
      ∀ c ∈ views, c.consistent = true ∧ c.sclHold = u.adapter.sclHold

/-- R203, R91 (the idle arms are the spec's decision D6): an idle instance: every event but `AM` completes, changes no instance state and invokes no callback. -/
def Obligations.IdleInstanceIgnoresAllButAm : Prop :=
  ∀ (i : Instr) (s : State) (u : Slave), current? s = some u → u.inst.active = false → isAm i = false →
    ∃ v, exec i s = .next (putCurrent s v) ∧ v.inst = u.inst ∧ v.calls = u.calls ∧
      callbacksOf v.trace = callbacksOf u.trace

/-- R107: no event reads `address`: with another address in the register an event does the same actions and leaves the same state, but
for that register and the record of what the callbacks saw. -/
def Obligations.AddressIsNeverRead : Prop :=
  ∀ (i : Instr) (s t : State) (u v : Slave) (a : SlaveAddr), current? s = some u → exec i s = .next t →
    current? t = some v →
    ∃ v', exec i (putCurrent s { u with inst := { u.inst with cfg := { u.inst.cfg with address := a } } }) =
        .next (putCurrent s v') ∧
      v'.inst = { v.inst with cfg := { v.inst.cfg with address := a } } ∧ v'.trace = v.trace ∧
      v'.adapter = v.adapter ∧ v'.draws = v.draws

/-- R138: per event, the balance of `begin` and `end`: `begin` calls exceed `end` calls by one for each transaction cut short by a `COL`
or by a second `AM`, and by one while a transaction is open. -/
def Obligations.BeginEndBalance : Prop :=
  ∀ (i : Instr) (s t : State) (u v : Slave), current? s = some u → exec i s = .next t → current? t = some v →
    v.trace.countP Action.isBegin + u.trace.count .endCall + u.inst.active.toNat =
      u.trace.countP Action.isBegin + v.trace.count .endCall + v.inst.active.toNat +
        (if u.inst.active = true ∧ (i = .col ∨ isAm i = true) then 1 else 0)

/-! ### Invariants of every step -/

/-- R33, R7: every step, from every state that meets the invariant, leaves a state that meets it (I1, I2, I3, a buffer of `CAP` cells, a
legal configuration); the configuration of no instance changes (I5); a pending flush has a length of 1 to `CAP` (I4). -/
def Obligations.StepKeepsInvariant : Prop :=
  ∀ s t : State, s.Inv → step s = .next t →
    t.Inv ∧ (t.slaves.map fun u => u.inst.cfg) = (s.slaves.map fun u => u.inst.cfg) ∧
    ∀ u ∈ t.slaves, directionCode u.inst.direction ≠ 0b11 ∧
      (u.inst.active = true → u.inst.direction = .write → 1 ≤ u.inst.index ∧ u.inst.index ≤ u.inst.cfg.cap)

/-- R138: every step, resets among them, keeps "`end` calls, plus one for an open transaction, never exceed `begin` calls", of every
instance; and it holds after reset. -/
def Obligations.StepKeepsBeginEndPairing : Prop :=
  (∀ u ∈ State.reset.slaves, u.Paired) ∧
  ∀ s t : State, (∀ u ∈ s.slaves, u.Paired) → step s = .next t → ∀ u ∈ t.slaves, u.Paired

/-! ### Rules about sequences of events -/

/-- R101: a Collision of instance `k`, at any point, and then any inputs that bring `k` no `AM` (other instances may do anything): no
callback of `k` is invoked in any number of steps, and `k` stays idle. -/
def Obligations.CollisionSilencesTransaction : Prop :=
  ∀ (n : Nat) (s t : State) (k : Nat) (st : Bool) (c : Presented) (co : Option Presented) (rest : List Input) (u v : Slave),
    s.pending = .entry k st c co :: rest → decode c.word = .ok .col →
    (∀ x ∈ s.pending, opensAt k x = false) →
    s.slaves[k]? = some u → core.run (n + 1) s = .next t → t.slaves[k]? = some v →
    v.calls = u.calls ∧ callbacksOf v.trace = callbacksOf u.trace ∧ v.inst.active = false

/-- R129: while an open transaction of instance `k` gets only DataByte events, `write` is invoked at most once, and not at all once
`index` is at least 1. -/
def Obligations.WriteCalledAtMostOnce : Prop :=
  ∀ (n : Nat) (s t : State) (k : Nat) (u v : Slave),
    s.Inv → s.slaves[k]? = some u → u.inst.active = true → (∀ x ∈ s.pending, onlyDataAt k x = true) →
    core.run n s = .next t → t.slaves[k]? = some v →
    v.trace.count .writeCall ≤ u.trace.count .writeCall + 1 ∧
    (1 ≤ u.inst.index → v.trace.count .writeCall = u.trace.count .writeCall)

/-- R138, R98: "For any well-formed event sequence `AddressMatch, DataByte*, Stop`, `begin` is invoked exactly once and `end` is invoked
exactly once, in that relative order", from any state: the sequence completes, `begin` is its first callback, `end` its last, and those
between are `read` and `write`. -/
def Obligations.BeginAndEndOncePerTransaction : Prop :=
  ∀ (s : State) (k : Nat) (u : Slave) (events : List Instr) (entries : List (Bool × Presented)) (rest : List Input),
    s.Inv → s.slaves[k]? = some u → wellFormedSequence events = true →
    entries.map (fun x => decode x.2.word) = events.map Except.ok → (∀ x ∈ entries, x.2.app.cooperative) →
    s.pending = entries.map (fun x => .entry k x.1 x.2 none) ++ rest →
    ∃ t v between, core.run events.length s = .next t ∧ t.pending = rest ∧ t.slaves[k]? = some v ∧
      v.inst.active = false ∧ callbacksOf v.trace = callbacksOf u.trace ++ .begin :: between ++ [.endTx] ∧
      ∀ c ∈ between, c = .read ∨ c = .write

/-- R119: a pure write transaction of `n >= 1` bytes, from any state: it completes, and its `read` callbacks are, for each overflow
policy, the payloads and lengths R119 gives. The environment of the entries is that of the model's expansion (Log 25). -/
def Obligations.WriteTransactionReads : Prop :=
  ∀ (s : State) (k : Nat) (u : Slave) (a : SlaveAddr) (bs : List Byte) (rest : List Input),
    s.Inv → s.slaves[k]? = some u → bs ≠ [] → s.pending = wtx k a bs ++ rest →
    ∃ t v, core.run (bs.length + 2) s = .next t ∧ t.pending = rest ∧ t.slaves[k]? = some v ∧
      v.inst.active = false ∧
      readsOf v.trace = readsOf u.trace ++ expectedReads u.inst.cfg.policy u.inst.cfg.cap bs

/-- R119, R220: under `TriggerFlush` a pure write transaction delivers every byte, in order. The environment of the entries is
that of the model's expansion (Log 25). -/
def Obligations.TriggerFlushDeliversEveryByte : Prop :=
  ∀ (s : State) (k : Nat) (u : Slave) (a : SlaveAddr) (bs : List Byte) (rest : List Input),
    s.Inv → s.slaves[k]? = some u → u.inst.cfg.policy = .triggerFlush → s.pending = wtx k a bs ++ rest →
    ∃ t v reads, core.run (bs.length + 2) s = .next t ∧ t.slaves[k]? = some v ∧
      readsOf v.trace = readsOf u.trace ++ reads ∧ (reads.map Prod.fst).flatten = bs ∧
      ∀ r ∈ reads, r.1.length = r.2 ∧ 1 ≤ r.2 ∧ r.2 ≤ u.inst.cfg.cap

/-- R126, R128, R129: a pure read transaction of `n` bytes, from any state: it completes, `write` is invoked once if `n >= 1` and
not otherwise, and the bytes loaded are the cells 0, 1, … as the application left them, then the filler. The environment of the
entries is that of the model's expansion (Log 25). -/
def Obligations.ReadTransactionBytes : Prop :=
  ∀ (s : State) (k : Nat) (u : Slave) (a : SlaveAddr) (n : Nat) (fill : List Byte) (rest : List Input),
    s.Inv → s.slaves[k]? = some u → s.pending = rtx k a n fill ++ rest →
    ∃ t v sent, core.run (n + 2) s = .next t ∧ t.pending = rest ∧ t.slaves[k]? = some v ∧
      v.trace.count .writeCall = u.trace.count .writeCall + (if n = 0 then 0 else 1) ∧
      sentBytes v.trace = sentBytes u.trace ++ sent ∧
      sent.map some = (List.range n).map fun j =>
        if j < u.inst.cfg.cap then (u.inst.buf.fill fill).read? j else some u.inst.cfg.txFiller

/-- R106 (c), R220 (e), R221: a write of at most `CAP` bytes, a repeated start, a read of `m` bytes: the bytes written are given to
no `read`; if `m >= 1` they stand in the cells 0, 1, … when `write()` is called. The environment of the entries is that of the
model's expansion (Log 25). -/
def Obligations.RepeatedStartKeepsBytesInBuffer : Prop :=
  ∀ (s : State) (k : Nat) (u : Slave) (a : SlaveAddr) (bs : List Byte) (m : Nat) (fill : List Byte) (rest : List Input),
    s.Inv → s.slaves[k]? = some u → bs.length ≤ u.inst.cfg.cap → s.pending = wrtx k a bs m fill ++ rest →
    ∃ t v views, core.run (bs.length + m + 3) s = .next t ∧ t.pending = rest ∧ t.slaves[k]? = some v ∧
      v.inst.active = false ∧ readsOf v.trace = readsOf u.trace ∧ v.calls = u.calls ++ views ∧
      (1 ≤ m → ∃ c ∈ views, c.call = .writeCall ∧ ∀ j b, bs[j]? = some b → c.inst.buf.read? j = some b)

/-- R191, R190: two events of different instances in either order leave every instance, its trace among it, the same. -/
def Obligations.InstancesAreIndependent : Prop :=
  ∀ (s t : State) (k l : Nat) (stk stl : Bool) (e f : Presented) (rest : List Input),
    k ≠ l → s.pending = .entry k stk e none :: .entry l stl f none :: rest → core.run 2 s = .next t →
    ∃ t', core.run 2 { s with pending := .entry l stl f none :: .entry k stk e none :: rest } = .next t' ∧
      t'.slaves = t.slaves ∧ t'.pending = t.pending

/-! ### Conditions, registers and ports -/

/-- R171 to R175, R179: which conditions an event is acted on for, what causes each, and what the event does for it, in every state that
meets the invariant. X1: in `COL`, and exactly then the actions are the release and the discard; the transaction is abandoned. X2: in
`DWE` with `ov`, and exactly then the overflow is cleared. X3: in `DWE` with `wcol`, and exactly then the write collision is cleared; for
X2 and X3 the byte is read and no register changes. X4: in a `DW` of an open transaction with `index = CAP`, and exactly then an open
`DW` does not raise `index` by one; the arm is the policy's. X5: in a `DR` of an open transaction with `index = CAP`, and exactly then the
filler is loaded with `index` unchanged. -/
def Obligations.ConditionCauses : Prop :=
  ∀ (i : Instr) (s t : State) (u v : Slave), s.Inv → current? s = some u → exec i s = .next t → current? t = some v →
    ∃ acts, v.trace = u.trace ++ acts ∧
      (.busCollision ∈ conditionsMet i u.inst ↔ i = .col) ∧
      (.busCollision ∈ conditionsMet i u.inst ↔ acts = [.rel, .drr]) ∧
      (.busCollision ∈ conditionsMet i u.inst → v.inst = { u.inst with active := false }) ∧
      (.receiveOverflow ∈ conditionsMet i u.inst ↔ ∃ w, i = .dweOv w) ∧
      (.receiveOverflow ∈ conditionsMet i u.inst ↔ .clrOv ∈ acts) ∧
      (.writeCollision ∈ conditionsMet i u.inst ↔ i = .dweOv true ∨ i = .dweWcol) ∧
      (.writeCollision ∈ conditionsMet i u.inst ↔ .clrWcol ∈ acts) ∧
      (.receiveOverflow ∈ conditionsMet i u.inst ∨ .writeCollision ∈ conditionsMet i u.inst →
        v.inst = u.inst ∧ .drr ∈ acts) ∧
      (.applicationBufferOverflow ∈ conditionsMet i u.inst ↔
        i = .dw ∧ u.inst.active = true ∧ u.inst.index = u.inst.cfg.cap) ∧
      (.applicationBufferOverflow ∈ conditionsMet i u.inst ↔
        i = .dw ∧ u.inst.active = true ∧ v.inst.index ≠ u.inst.index + 1) ∧
      (.applicationBufferOverflow ∈ conditionsMet i u.inst →
        match u.inst.cfg.policy with
        | .triggerFlush => v.inst.index = 1 ∧ ∃ bytes, acts = [.drr, .readCall bytes u.inst.cfg.cap, .rel]
        | .ignore => v.inst.index = u.inst.cfg.cap ∧ v.inst.buf = u.inst.buf ∧ acts = [.drr, .rel]
        | .overwrite => v.inst.index = 1 ∧ acts = [.drr, .rel]) ∧
      (.transmitIndexOverflow ∈ conditionsMet i u.inst ↔
        (∃ ov w, i = .dr ov w) ∧ u.inst.active = true ∧ u.inst.index = u.inst.cfg.cap) ∧
      (.transmitIndexOverflow ∈ conditionsMet i u.inst ↔
        .drw u.inst.cfg.txFiller ∈ acts ∧ v.inst.index = u.inst.index) ∧
      (.transmitIndexOverflow ∈ conditionsMet i u.inst → acts = [.drw u.inst.cfg.txFiller, .rel])

/-- R96 (b), R22, R29: under the invariant `index` fits its register of `IDX_W` bits, and below `CAP` so does `index + 1`. -/
def Obligations.IndexFitsItsRegister : Prop :=
  ∀ i : Instance, i.Inv →
    (idxWord i).toNat = i.index ∧ (i.index < i.cfg.cap → i.index + 1 < 2 ^ idxWidth i.cfg.cap)

/-- R29, R24, R25: the fields of `CFG` and `STAT` stand where the layout puts them. -/
def Obligations.RegisterLayout : Prop :=
  ∀ i : Instance,
    (cfgWord i).extractLsb' 0 7 = i.cfg.address ∧ (cfgWord i).extractLsb' 7 2 = policyCode i.cfg.policy ∧
    (statWord i).getLsbD 0 = i.active ∧ (statWord i).extractLsb' 1 2 = directionCode i.direction ∧
    policyOfCode (policyCode i.cfg.policy) = some i.cfg.policy

/-- R6, U1, U8, D15: a configuration is accepted exactly when `CAP >= 1`, the address is 8 to 119 and the policy code is not `0b11`; and
what is accepted is legal. -/
def Obligations.ConfigurationCheck : Prop :=
  ∀ (cap : Nat) (addr : SlaveAddr) (code : BitVec 2) (filler : Byte),
    ((∃ c, configure cap addr code filler = .ok c) ↔
      1 ≤ cap ∧ 8 ≤ addr.toNat ∧ addr.toNat ≤ 119 ∧ code ≠ 0b11) ∧
    ∀ c, configure cap addr code filler = .ok c →
      c.legal = true ∧ c.cap = cap ∧ c.address = addr ∧ policyCode c.policy = code ∧ c.txFiller = filler

/-- R79, R80: the callback codes, and the strobes of the callback actions. -/
def Obligations.CallbackPortCodes : Prop :=
  ∀ (a : SlaveAddr) (bytes : List Byte) (n : Nat),
    strobeOf (.beginCall a) = .cbReq 0b00 a.toNat ∧ strobeOf (.readCall bytes n) = .cbReq 0b01 n ∧
    strobeOf .writeCall = .cbReq 0b10 0 ∧ strobeOf .endCall = .cbReq 0b11 0
end

