-- ==== Sys2Proof/Laws/Memory.lean ====
section
/-!
SUPPORT. The laws of the buffer: reading after writing, and that every operation keeps the canonical form (R51, R113, R154).
-/

namespace Sys2Proof.Machine

theorem Memory.wf_iff {m : Memory} {cap : Nat} : m.wf cap = true ↔ m.map Prod.fst = List.range cap := beq_iff_eq

/-- A cell exists exactly when its number is listed (R51). -/
theorem Memory.read?_isSome_iff (m : Memory) (i : Nat) : (m.read? i).isSome = true ↔ i ∈ m.map Prod.fst := by
  induction m with
  | nil => simp [Memory.read?]
  | cons c m ih =>
    obtain ⟨a, b⟩ := c
    by_cases h : a = i
    · simp [Memory.read?, h]
    · simp only [Memory.read?, h, if_false, ih, List.map_cons, List.mem_cons]
      exact ⟨.inr, fun hm => hm.resolve_left fun he => h he.symm⟩

/-- In a canonical buffer exactly the cells 0 to `cap - 1` exist (R50, R51). -/
theorem Memory.read?_of_lt {m : Memory} {cap i : Nat} (hw : m.wf cap = true) (hi : i < cap) : ∃ b, m.read? i = some b := by
  apply Option.isSome_iff_exists.mp
  rw [Memory.read?_isSome_iff, Memory.wf_iff.mp hw]
  exact List.mem_range.mpr hi

theorem Memory.lt_of_read? {m : Memory} {cap i : Nat} {b : Byte} (hw : m.wf cap = true) (h : m.read? i = some b) : i < cap := by
  have : i ∈ m.map Prod.fst := (Memory.read?_isSome_iff m i).mp (by simp [h])
  rw [Memory.wf_iff.mp hw] at this
  exact List.mem_range.mp this

@[simp] theorem Memory.map_fst_write (m : Memory) (i : Nat) (v : Byte) :
    (m.write i v).map Prod.fst = m.map Prod.fst := by
  induction m with
  | nil => rfl
  | cons c m ih =>
    obtain ⟨a, b⟩ := c
    by_cases h : a = i <;> simp [Memory.write, h, ih]

theorem Memory.wf_write {m : Memory} {cap : Nat} (hw : m.wf cap = true) (i : Nat) (v : Byte) :
    (m.write i v).wf cap = true := by
  simpa [Memory.wf_iff] using hw

theorem Memory.wf_fill {m : Memory} {cap : Nat} (hw : m.wf cap = true) (content : List Byte) :
    (m.fill content).wf cap = true := by
  simpa [Memory.wf_iff, Memory.fill, Function.comp_def] using hw

theorem Memory.wf_afterReset (k n cap : Nat) : (Memory.afterReset k n cap).wf cap = true := by
  simp [Memory.wf_iff, Memory.afterReset, Function.comp_def]

/-- Two listings of the same numbers that read alike are the same list. -/
theorem Memory.eq_of_read? (m : Memory) :
    ∀ m' : Memory, m.map Prod.fst = m'.map Prod.fst → (m.map Prod.fst).Nodup →
      (∀ i, m.read? i = m'.read? i) → m = m' := by
  induction m with
  | nil => intro m' hk _ _; simpa using hk
  | cons c m ih =>
    intro m' hk hn hr
    obtain ⟨a, b⟩ := c
    cases m' with
    | nil => simp at hk
    | cons c' m' =>
      obtain ⟨a', b'⟩ := c'
      simp only [List.map_cons, List.cons.injEq, List.nodup_cons] at hk hn
      obtain ⟨rfl, hk⟩ := hk
      have hb : b = b' := by simpa [Memory.read?] using hr a
      subst hb
      congr 1
      refine ih m' hk hn.2 fun i => ?_
      by_cases hi : a = i
      · subst hi
        have h1 : Memory.read? m a = none :=
          Option.not_isSome_iff_eq_none.mp fun h => hn.1 ((Memory.read?_isSome_iff m a).mp h)
        have h2 : Memory.read? m' a = none :=
          Option.not_isSome_iff_eq_none.mp fun h => hn.1 (hk ▸ (Memory.read?_isSome_iff m' a).mp h)
        rw [h1, h2]
      · simpa [Memory.read?, hi] using hr i

/-- The form is canonical: equal contents are equal data. -/
theorem Memory.ext_of_wf {m m' : Memory} {cap : Nat} (hw : m.wf cap = true) (hw' : m'.wf cap = true)
    (hr : ∀ i, m.read? i = m'.read? i) : m = m' :=
  Memory.eq_of_read? m m' ((Memory.wf_iff.mp hw).trans (Memory.wf_iff.mp hw').symm)
    (Memory.wf_iff.mp hw ▸ List.nodup_range) hr

/-- What was written is read back (R59 (c)). -/
theorem Memory.read?_write_self {m : Memory} {i : Nat} {b : Byte} (h : m.read? i = some b) (v : Byte) :
    (m.write i v).read? i = some v := by
  induction m with
  | nil => simp [Memory.read?] at h
  | cons c m ih =>
    obtain ⟨a, b'⟩ := c
    by_cases ha : a = i
    · simp [Memory.write, Memory.read?, ha]
    · simp only [Memory.read?, ha, if_false] at h
      simp [Memory.write, Memory.read?, ha, ih h]

/-- Every other cell keeps its value (R113). -/
theorem Memory.read?_write_ne (m : Memory) {i j : Nat} (hij : j ≠ i) (v : Byte) :
    (m.write i v).read? j = m.read? j := by
  induction m with
  | nil => rfl
  | cons c m ih =>
    obtain ⟨a, b⟩ := c
    by_cases ha : a = i
    · simp [Memory.write, Memory.read?, ha, Ne.symm hij]
    · simp only [Memory.write, ha, if_false, Memory.read?]
      by_cases hj : a = j <;> simp [hj, ih]

/-- What the application wrote is read back, and a cell it left alone keeps its value (R154). -/
theorem Memory.read?_fill (m : Memory) (content : List Byte) (i : Nat) :
    (m.fill content).read? i = (m.read? i).map fun b => (content[i]?).getD b := by
  induction m with
  | nil => rfl
  | cons c m ih =>
    obtain ⟨a, b⟩ := c
    by_cases ha : a = i
    · simp [Memory.fill, Memory.read?, ha]
    · simp only [Memory.fill, List.map_cons, Memory.read?, ha, if_false] at ih ⊢
      exact ih

/-- The cells of a run that lies inside the buffer, one by one (R52, R153). -/
theorem Memory.cells_of_le {m : Memory} {cap : Nat} (hw : m.wf cap = true) (n : Nat) :
    ∀ i, i + n ≤ cap → ∃ bs, m.cells i n = some bs ∧ bs.length = n ∧ ∀ j, j < n → bs[j]? = m.read? (i + j) := by
  induction n with
  | zero => exact fun i _ => ⟨[], rfl, rfl, fun j hj => absurd hj (Nat.not_lt_zero j)⟩
  | succ n ih =>
    intro i hi
    obtain ⟨b, hb⟩ := Memory.read?_of_lt hw (show i < cap by omega)
    obtain ⟨bs, hbs, hlen, hget⟩ := ih (i + 1) (by omega)
    refine ⟨b :: bs, by simp [Memory.cells, hb, hbs], by simp [hlen], fun j hj => ?_⟩
    cases j with
    | zero => simpa using hb.symm
    | succ j =>
      have := hget j (by omega)
      simpa [Nat.add_assoc, Nat.add_comm 1 j] using this

/-- The payload of a `read` of length at most `CAP` exists and is `buf[0..n-1]` (R153). -/
theorem Memory.payload_of_le {m : Memory} {cap n : Nat} (hw : m.wf cap = true) (hn : n ≤ cap) :
    ∃ bs, m.payload n = some bs ∧ bs.length = n ∧ ∀ j, j < n → bs[j]? = m.read? j := by
  obtain ⟨bs, hbs, hlen, hget⟩ := Memory.cells_of_le hw n 0 (by omega)
  exact ⟨bs, hbs, hlen, fun j hj => by simpa using hget j hj⟩

theorem Memory.length_of_cells {m : Memory} (n : Nat) : ∀ {i bs}, m.cells i n = some bs → bs.length = n := by
  induction n with
  | zero => intro i bs h; simp [Memory.cells] at h; simp [h]
  | succ n ih =>
    intro i bs h
    simp only [Memory.cells] at h
    split at h
    · exact absurd h (by simp)
    · split at h
      · exact absurd h (by simp)
      · next hc => cases h; simp [ih hc]

theorem Memory.length_of_payload {m : Memory} {n : Nat} {bs : List Byte} (h : m.payload n = some bs) : bs.length = n :=
  Memory.length_of_cells n h

end Sys2Proof.Machine
end

