-- ==== Sys2Proof/Laws/State.lean ====
section
/-!
SUPPORT. What each operation on one instance does to each part of it, and what replacing the current instance does to the state.
Each is true by `rfl` and a simp lemma, so that no proof unfolds a record update.
-/

namespace Sys2Proof.Machine

/-! ### setIndex -/

@[simp] theorem setIndex_inst (n : Nat) (u : Slave) : (setIndex n u).inst = { u.inst with index := n } := rfl
@[simp] theorem setIndex_adapter (n : Nat) (u : Slave) : (setIndex n u).adapter = u.adapter := rfl
@[simp] theorem setIndex_app (n : Nat) (u : Slave) : (setIndex n u).app = u.app := rfl
@[simp] theorem setIndex_trace (n : Nat) (u : Slave) : (setIndex n u).trace = u.trace := rfl
@[simp] theorem setIndex_calls (n : Nat) (u : Slave) : (setIndex n u).calls = u.calls := rfl
@[simp] theorem setIndex_draws (n : Nat) (u : Slave) : (setIndex n u).draws = u.draws := rfl

/-! ### setDirection -/

@[simp] theorem setDirection_inst (d : Direction) (u : Slave) : (setDirection d u).inst = { u.inst with direction := d } := rfl
@[simp] theorem setDirection_adapter (d : Direction) (u : Slave) : (setDirection d u).adapter = u.adapter := rfl
@[simp] theorem setDirection_app (d : Direction) (u : Slave) : (setDirection d u).app = u.app := rfl
@[simp] theorem setDirection_trace (d : Direction) (u : Slave) : (setDirection d u).trace = u.trace := rfl
@[simp] theorem setDirection_calls (d : Direction) (u : Slave) : (setDirection d u).calls = u.calls := rfl
@[simp] theorem setDirection_draws (d : Direction) (u : Slave) : (setDirection d u).draws = u.draws := rfl

/-! ### setActive -/

@[simp] theorem setActive_inst (a : Bool) (u : Slave) : (setActive a u).inst = { u.inst with active := a } := rfl
@[simp] theorem setActive_adapter (a : Bool) (u : Slave) : (setActive a u).adapter = u.adapter := rfl
@[simp] theorem setActive_app (a : Bool) (u : Slave) : (setActive a u).app = u.app := rfl
@[simp] theorem setActive_trace (a : Bool) (u : Slave) : (setActive a u).trace = u.trace := rfl
@[simp] theorem setActive_calls (a : Bool) (u : Slave) : (setActive a u).calls = u.calls := rfl
@[simp] theorem setActive_draws (a : Bool) (u : Slave) : (setActive a u).draws = u.draws := rfl

/-! ### setBuf -/

@[simp] theorem setBuf_inst (m : Memory) (u : Slave) : (setBuf m u).inst = { u.inst with buf := m } := rfl
@[simp] theorem setBuf_adapter (m : Memory) (u : Slave) : (setBuf m u).adapter = u.adapter := rfl
@[simp] theorem setBuf_app (m : Memory) (u : Slave) : (setBuf m u).app = u.app := rfl
@[simp] theorem setBuf_trace (m : Memory) (u : Slave) : (setBuf m u).trace = u.trace := rfl
@[simp] theorem setBuf_calls (m : Memory) (u : Slave) : (setBuf m u).calls = u.calls := rfl
@[simp] theorem setBuf_draws (m : Memory) (u : Slave) : (setBuf m u).draws = u.draws := rfl

/-! ### emit -/

@[simp] theorem emit_inst (a : Action) (u : Slave) : (emit a u).inst = u.inst := rfl
@[simp] theorem emit_adapter (a : Action) (u : Slave) : (emit a u).adapter = u.adapter := rfl
@[simp] theorem emit_app (a : Action) (u : Slave) : (emit a u).app = u.app := rfl
@[simp] theorem emit_trace (a : Action) (u : Slave) : (emit a u).trace = u.trace ++ [a] := rfl
@[simp] theorem emit_calls (a : Action) (u : Slave) : (emit a u).calls = u.calls := rfl
@[simp] theorem emit_draws (a : Action) (u : Slave) : (emit a u).draws = u.draws := rfl

/-! ### drRead -/

@[simp] theorem drRead_inst (k : Nat) (u : Slave) : (drRead k u).inst = u.inst := rfl
@[simp] theorem drRead_adapter (k : Nat) (u : Slave) : (drRead k u).adapter = { u.adapter with dr := Config.drAfterRead k u.draws } := rfl
@[simp] theorem drRead_app (k : Nat) (u : Slave) : (drRead k u).app = u.app := rfl
@[simp] theorem drRead_trace (k : Nat) (u : Slave) : (drRead k u).trace = u.trace ++ [.drr] := rfl
@[simp] theorem drRead_calls (k : Nat) (u : Slave) : (drRead k u).calls = u.calls := rfl
@[simp] theorem drRead_draws (k : Nat) (u : Slave) : (drRead k u).draws = u.draws + 1 := rfl

/-! ### drWrite -/

@[simp] theorem drWrite_inst (v : Byte) (u : Slave) : (drWrite v u).inst = u.inst := rfl
@[simp] theorem drWrite_adapter (v : Byte) (u : Slave) : (drWrite v u).adapter = { u.adapter with dr := v } := rfl
@[simp] theorem drWrite_app (v : Byte) (u : Slave) : (drWrite v u).app = u.app := rfl
@[simp] theorem drWrite_trace (v : Byte) (u : Slave) : (drWrite v u).trace = u.trace ++ [.drw v] := rfl
@[simp] theorem drWrite_calls (v : Byte) (u : Slave) : (drWrite v u).calls = u.calls := rfl
@[simp] theorem drWrite_draws (v : Byte) (u : Slave) : (drWrite v u).draws = u.draws := rfl

/-! ### clearOverflow -/

@[simp] theorem clearOverflow_inst (u : Slave) : (clearOverflow u).inst = u.inst := rfl
@[simp] theorem clearOverflow_adapter (u : Slave) : (clearOverflow u).adapter = { u.adapter with rxOverflow := false } := rfl
@[simp] theorem clearOverflow_app (u : Slave) : (clearOverflow u).app = u.app := rfl
@[simp] theorem clearOverflow_trace (u : Slave) : (clearOverflow u).trace = u.trace ++ [.clrOv] := rfl
@[simp] theorem clearOverflow_calls (u : Slave) : (clearOverflow u).calls = u.calls := rfl
@[simp] theorem clearOverflow_draws (u : Slave) : (clearOverflow u).draws = u.draws := rfl

/-! ### clearWriteCollision -/

@[simp] theorem clearWriteCollision_inst (u : Slave) : (clearWriteCollision u).inst = u.inst := rfl
@[simp] theorem clearWriteCollision_adapter (u : Slave) : (clearWriteCollision u).adapter = { u.adapter with writeCollision := false } := rfl
@[simp] theorem clearWriteCollision_app (u : Slave) : (clearWriteCollision u).app = u.app := rfl
@[simp] theorem clearWriteCollision_trace (u : Slave) : (clearWriteCollision u).trace = u.trace ++ [.clrWcol] := rfl
@[simp] theorem clearWriteCollision_calls (u : Slave) : (clearWriteCollision u).calls = u.calls := rfl
@[simp] theorem clearWriteCollision_draws (u : Slave) : (clearWriteCollision u).draws = u.draws := rfl

/-! ### releaseClock -/

@[simp] theorem releaseClock_inst (u : Slave) : (releaseClock u).inst = u.inst := rfl
@[simp] theorem releaseClock_adapter (u : Slave) : (releaseClock u).adapter = { u.adapter with sclHold := false } := rfl
@[simp] theorem releaseClock_app (u : Slave) : (releaseClock u).app = u.app := rfl
@[simp] theorem releaseClock_trace (u : Slave) : (releaseClock u).trace = u.trace ++ [.rel] := rfl
@[simp] theorem releaseClock_calls (u : Slave) : (releaseClock u).calls = u.calls := rfl
@[simp] theorem releaseClock_draws (u : Slave) : (releaseClock u).draws = u.draws := rfl

/-! ### acceptEvent -/

@[simp] theorem acceptEvent_inst (stretch : Bool) (e : Presented) (u : Slave) : (acceptEvent stretch e u).inst = u.inst := rfl
@[simp] theorem acceptEvent_adapter (stretch : Bool) (e : Presented) (u : Slave) : (acceptEvent stretch e u).adapter = ⟨e.dr, u.adapter.sclHold || stretch, e.rxOverflow, e.writeCollision, e.busCollision⟩ := rfl
@[simp] theorem acceptEvent_app (stretch : Bool) (e : Presented) (u : Slave) : (acceptEvent stretch e u).app = e.app := rfl
@[simp] theorem acceptEvent_trace (stretch : Bool) (e : Presented) (u : Slave) : (acceptEvent stretch e u).trace = u.trace := rfl
@[simp] theorem acceptEvent_calls (stretch : Bool) (e : Presented) (u : Slave) : (acceptEvent stretch e u).calls = u.calls := rfl
@[simp] theorem acceptEvent_draws (stretch : Bool) (e : Presented) (u : Slave) : (acceptEvent stretch e u).draws = u.draws := rfl

/-! ### resetSlave -/

@[simp] theorem resetSlave_inst (k : Nat) (u : Slave) : (resetSlave k u).inst = Instance.afterReset k u.draws u.inst.cfg := rfl
@[simp] theorem resetSlave_adapter (k : Nat) (u : Slave) : (resetSlave k u).adapter = u.adapter := rfl
@[simp] theorem resetSlave_app (k : Nat) (u : Slave) : (resetSlave k u).app = u.app := rfl
@[simp] theorem resetSlave_trace (k : Nat) (u : Slave) : (resetSlave k u).trace = u.trace := rfl
@[simp] theorem resetSlave_calls (k : Nat) (u : Slave) : (resetSlave k u).calls = u.calls := rfl
@[simp] theorem resetSlave_draws (k : Nat) (u : Slave) : (resetSlave k u).draws = u.draws + 1 := rfl

/-! ### logCall -/

@[simp] theorem logCall_inst (a : Action) (u : Slave) : (logCall a u).inst = u.inst := rfl
@[simp] theorem logCall_adapter (a : Action) (u : Slave) : (logCall a u).adapter = u.adapter := rfl
@[simp] theorem logCall_app (a : Action) (u : Slave) : (logCall a u).app = u.app := rfl
@[simp] theorem logCall_trace (a : Action) (u : Slave) : (logCall a u).trace = u.trace ++ [a] := rfl
@[simp] theorem logCall_calls (a : Action) (u : Slave) :
    (logCall a u).calls = u.calls ++ [⟨a, u.inst, u.adapter.sclHold⟩] := rfl
@[simp] theorem logCall_draws (a : Action) (u : Slave) : (logCall a u).draws = u.draws := rfl

/-! ### appended -/

@[simp] theorem appended_inst (b : Byte) (u : Slave) :
    (appended b u).inst =
      { u.inst with buf := u.inst.buf.write u.inst.index b, index := u.inst.index + 1 } := rfl
@[simp] theorem appended_adapter (b : Byte) (u : Slave) : (appended b u).adapter = u.adapter := rfl
@[simp] theorem appended_app (b : Byte) (u : Slave) : (appended b u).app = u.app := rfl
@[simp] theorem appended_trace (b : Byte) (u : Slave) : (appended b u).trace = u.trace := rfl
@[simp] theorem appended_calls (b : Byte) (u : Slave) : (appended b u).calls = u.calls := rfl
@[simp] theorem appended_draws (b : Byte) (u : Slave) : (appended b u).draws = u.draws := rfl

/-! ### clearFlagged -/

@[simp] theorem clearFlagged_inst (ov wcol : Bool) (u : Slave) : (clearFlagged ov wcol u).inst = u.inst := by
  cases ov <;> cases wcol <;> rfl
@[simp] theorem clearFlagged_adapter (ov wcol : Bool) (u : Slave) :
    (clearFlagged ov wcol u).adapter =
      { u.adapter with
        rxOverflow := u.adapter.rxOverflow && !ov
        writeCollision := u.adapter.writeCollision && !wcol } := by
  cases ov <;> cases wcol <;> simp [clearFlagged]
@[simp] theorem clearFlagged_app (ov wcol : Bool) (u : Slave) : (clearFlagged ov wcol u).app = u.app := by
  cases ov <;> cases wcol <;> rfl
@[simp] theorem clearFlagged_trace (ov wcol : Bool) (u : Slave) :
    (clearFlagged ov wcol u).trace =
      u.trace ++ ((if ov then [.clrOv] else []) ++ (if wcol then [.clrWcol] else [])) := by
  cases ov <;> cases wcol <;> simp [clearFlagged]
@[simp] theorem clearFlagged_calls (ov wcol : Bool) (u : Slave) : (clearFlagged ov wcol u).calls = u.calls := by
  cases ov <;> cases wcol <;> rfl
@[simp] theorem clearFlagged_draws (ov wcol : Bool) (u : Slave) : (clearFlagged ov wcol u).draws = u.draws := by
  cases ov <;> cases wcol <;> rfl

/-! ### The state -/

@[simp] theorem putCurrent_slaves (s : State) (u : Slave) : (putCurrent s u).slaves = s.slaves.set s.cur u := rfl
@[simp] theorem putCurrent_cur (s : State) (u : Slave) : (putCurrent s u).cur = s.cur := rfl
@[simp] theorem putCurrent_pending (s : State) (u : Slave) : (putCurrent s u).pending = s.pending := rfl

theorem current?_lt {s : State} {u : Slave} (h : current? s = some u) : s.cur < s.slaves.length :=
  (List.getElem?_eq_some_iff.mp h).1

theorem current?_mem {s : State} {u : Slave} (h : current? s = some u) : u ∈ s.slaves := List.mem_of_getElem? h

theorem current?_putCurrent {s : State} {u : Slave} (h : current? s = some u) (v : Slave) :
    current? (putCurrent s v) = some v := by
  simp [current?, current?_lt h]

/-- Only the current instance is replaced (R190). -/
theorem putCurrent_other (s : State) (v : Slave) {k : Nat} (hk : k ≠ s.cur) :
    (putCurrent s v).slaves[k]? = s.slaves[k]? := by
  simp [List.getElem?_set_ne (Ne.symm hk)]

end Sys2Proof.Machine
end

