-- ==== Sys2Proof/Laws/Ops.lean ====
section
/-!
SUPPORT. One lemma per shared operation that says everything it can do: when it answers a next state, and which.
-/

namespace Sys2Proof.Machine

@[simp] theorem andThen_next {α β : Type} (a : α) (f : α → Result β) : andThen (.next a) f = f a := rfl
@[simp] theorem andThen_fault {α β : Type} (e : Fault) (f : α → Result β) : andThen (.fault e) f = .fault e := rfl
@[simp] theorem andThen_refused {α β : Type} (e : Refusal) (f : α → Result β) : andThen (.refused e) f = .refused e := rfl

theorem andThen_next_iff {α β : Type} {r : Result α} {f : α → Result β} {b : β} :
    andThen r f = .next b ↔ ∃ a, r = .next a ∧ f a = .next b := by
  cases r <;> simp

theorem callBack_next_iff {c : Callback} {how : CallEnd} {a : Action} {u v : Slave} :
    callBack c how a u = .next v ↔ how = .returns ∧ v = logCall a u := by
  cases how <;> simp [callBack, eq_comm]

/-- Where a run can be stuck in a sequence: in its first part, or in the second from the state the first left. -/
theorem andThen_fault_iff {α β : Type} {r : Result α} {f : α → Result β} {e : Fault} :
    andThen r f = .fault e ↔ r = .fault e ∨ ∃ a, r = .next a ∧ f a = .fault e := by
  cases r <;> simp

/-- A callback faults only by never returning, and then leaves the instance as it was at the call (R180, R215). -/
theorem callBack_fault_iff {c : Callback} {how : CallEnd} {a : Action} {u : Slave} {e : Fault} :
    callBack c how a u = .fault e ↔ how = .neverReturns ∧ e = .stuckInCallback c u := by
  cases how <;> simp [callBack, eq_comm]

theorem callRead_stuck_iff {n : Nat} {u v : Slave} {c : Callback} :
    callRead n u = .fault (.stuckInCallback c v) ↔
      (u.inst.buf.payload n).isSome = true ∧ u.app.onRead = .neverReturns ∧ c = .read ∧ v = u := by
  unfold callRead
  split <;> simp_all [callBack_fault_iff]

theorem callWrite_fault_iff {u : Slave} {e : Fault} :
    callWrite u = .fault e ↔ u.app.onWrite = .neverReturns ∧ e = .stuckInCallback .write u := by
  simp [callWrite, andThen_fault_iff, callBack_fault_iff]

theorem appendByte_not_stuck {b : Byte} {u v : Slave} {c : Callback} :
    appendByte b u ≠ .fault (.stuckInCallback c v) := by
  unfold appendByte
  split <;> simp

theorem transmitByte_not_stuck {u v : Slave} {c : Callback} : transmitByte u ≠ .fault (.stuckInCallback c v) := by
  unfold transmitByte
  split
  · split <;> simp
  · simp

theorem callBegin_next_iff {addr : SlaveAddr} {u v : Slave} :
    callBegin addr u = .next v ↔ u.app.onBegin = .returns ∧ v = logCall (.beginCall addr) u :=
  callBack_next_iff

theorem callEnd_next_iff {u v : Slave} :
    callEnd u = .next v ↔ u.app.onEnd = .returns ∧ v = logCall .endCall u :=
  callBack_next_iff

theorem callRead_next_iff {n : Nat} {u v : Slave} :
    callRead n u = .next v ↔
      ∃ bytes, u.inst.buf.payload n = some bytes ∧ u.app.onRead = .returns ∧ v = logCall (.readCall bytes n) u := by
  unfold callRead
  split <;> simp_all [callBack_next_iff]

theorem callWrite_next_iff {u v : Slave} :
    callWrite u = .next v ↔
      u.app.onWrite = .returns ∧ v = setBuf (u.inst.buf.fill u.app.fill) (logCall .writeCall u) := by
  simp only [callWrite, andThen_next_iff, callBack_next_iff]
  constructor
  · rintro ⟨w, ⟨hw, rfl⟩, h⟩
    cases h
    exact ⟨hw, rfl⟩
  · rintro ⟨hw, rfl⟩
    exact ⟨_, ⟨hw, rfl⟩, rfl⟩

theorem appendByte_next_iff {b : Byte} {u v : Slave} :
    appendByte b u = .next v ↔ (u.inst.buf.read? u.inst.index).isSome = true ∧ v = appended b u := by
  unfold appendByte
  split
  · next h => simp [h]
  · next h => simpa [h] using eq_comm

theorem transmitByte_next_iff {u v : Slave} :
    transmitByte u = .next v ↔
      (u.inst.index < u.inst.cfg.cap ∧
        ∃ b, u.inst.buf.read? u.inst.index = some b ∧ v = setIndex (u.inst.index + 1) (drWrite b u)) ∨
      (¬u.inst.index < u.inst.cfg.cap ∧ v = drWrite u.inst.cfg.txFiller u) := by
  unfold transmitByte
  split
  · next hi =>
    split
    · next h => simp [hi, h]
    · next h => simpa [hi, h] using eq_comm
  · next hi => simpa [hi] using eq_comm

theorem onCurrent_next_iff {f : Nat → Slave → Result Slave} {s t : State} :
    onCurrent f s = .next t ↔
      ∃ u v, current? s = some u ∧ f s.cur u = .next v ∧ t = putCurrent s v := by
  unfold onCurrent
  split
  · next h => simp [h]
  · next u h => simp [h, andThen_next_iff, eq_comm (a := t)]

theorem onCurrent_fault_iff {f : Nat → Slave → Result Slave} {s : State} {e : Fault} :
    onCurrent f s = .fault e ↔ ∃ u, current? s = some u ∧ f s.cur u = .fault e := by
  unfold onCurrent
  split
  · next h => simp [h]
  · next u h => simp [h, andThen_fault_iff]

theorem onCurrent_of_current? (f : Nat → Slave → Result Slave) {s : State} {u : Slave} (h : current? s = some u) :
    onCurrent f s = andThen (f s.cur u) fun v => .next (putCurrent s v) := by
  simp [onCurrent, h]

end Sys2Proof.Machine
end

