-- ==== Sys2Proof/Laws/Events.lean ====
section
/-!
SUPPORT. What each event can do to the instance it is handled on, said once per procedure of the spec, and `exec` as one function
of the instance.
-/

namespace Sys2Proof.Machine

/-- The procedure `handle` runs on the instance for event `i` (R91). -/
def doEvent (i : Instr) : Nat → Slave → Result Slave :=
  match i with
  | .col => doCollision
  | .am addr => doAddressMatch addr
  | .dw => doDataWrite
  | .dweOv wcol => doDiscard true wcol
  | .dweWcol => doDiscard false true
  | .dr ov wcol => doDataRead ov wcol
  | .stop => doStopEvent

theorem exec_eq_onCurrent (i : Instr) (s : State) : exec i s = onCurrent (doEvent i) s := by
  cases i <;> rfl

/-- Everything `exec` can do: it replaces the current instance (R190). -/
theorem exec_next_iff {i : Instr} {s t : State} :
    exec i s = .next t ↔ ∃ u v, current? s = some u ∧ doEvent i s.cur u = .next v ∧ t = putCurrent s v := by
  rw [exec_eq_onCurrent, onCurrent_next_iff]

theorem doAddressMatch_next_iff {addr : SlaveAddr} {k : Nat} {u v : Slave} :
    doAddressMatch addr k u = .next v ↔
      u.app.onBegin = .returns ∧
      v = releaseClock (logCall (.beginCall addr) (setActive true (setDirection .none (setIndex 0 (drRead k u))))) := by
  simp only [doAddressMatch, andThen_next_iff, callBegin_next_iff]
  constructor
  · rintro ⟨w, ⟨hw, rfl⟩, h⟩
    cases h
    exact ⟨hw, rfl⟩
  · rintro ⟨hw, rfl⟩
    exact ⟨_, ⟨hw, rfl⟩, rfl⟩

theorem appendAndRelease_next_iff {b : Byte} {u v : Slave} :
    appendAndRelease b u = .next v ↔
      (u.inst.buf.read? u.inst.index).isSome = true ∧ v = releaseClock (appended b u) := by
  simp only [appendAndRelease, andThen_next_iff, appendByte_next_iff]
  constructor
  · rintro ⟨w, ⟨hw, rfl⟩, h⟩
    cases h
    exact ⟨hw, rfl⟩
  · rintro ⟨hw, rfl⟩
    exact ⟨_, ⟨hw, rfl⟩, rfl⟩

/-- The three arms of the arbiter (R115, R116, R117). -/
theorem overflowArbiter_next {b : Byte} {u v : Slave} (h : overflowArbiter b u = .next v) :
    (u.inst.cfg.policy = .triggerFlush ∧ (u.inst.buf.read? 0).isSome = true ∧ u.app.onRead = .returns ∧
      ∃ bytes, u.inst.buf.payload u.inst.cfg.cap = some bytes ∧
        v = releaseClock (appended b (setIndex 0 (logCall (.readCall bytes u.inst.cfg.cap) u)))) ∨
    (u.inst.cfg.policy = .ignore ∧ v = releaseClock u) ∨
    (u.inst.cfg.policy = .overwrite ∧ (u.inst.buf.read? 0).isSome = true ∧
      v = releaseClock (appended b (setIndex 0 u))) := by
  unfold overflowArbiter at h
  split at h
  · next hp =>
    obtain ⟨w, hw, h⟩ := andThen_next_iff.mp h
    obtain ⟨bytes, hb, hr, rfl⟩ := callRead_next_iff.mp hw
    obtain ⟨hs, rfl⟩ := appendAndRelease_next_iff.mp h
    exact .inl ⟨hp, hs, hr, bytes, hb, rfl⟩
  · next hp => cases h; exact .inr (.inl ⟨hp, rfl⟩)
  · next hp =>
    obtain ⟨hs, rfl⟩ := appendAndRelease_next_iff.mp h
    exact .inr (.inr ⟨hp, hs, rfl⟩)

/-- The arms of `DoReceive` (R111). -/
theorem doReceive_next {k : Nat} {u v : Slave} (h : doReceive k u = .next v) :
    (u.inst.index ≠ u.inst.cfg.cap ∧ (u.inst.buf.read? u.inst.index).isSome = true ∧
      v = releaseClock (appended (drValue u) (setDirection .write (drRead k u)))) ∨
    (u.inst.index = u.inst.cfg.cap ∧ u.inst.cfg.policy = .triggerFlush ∧ (u.inst.buf.read? 0).isSome = true ∧
      u.app.onRead = .returns ∧ ∃ bytes, u.inst.buf.payload u.inst.cfg.cap = some bytes ∧
        v = releaseClock (appended (drValue u)
          (setIndex 0 (logCall (.readCall bytes u.inst.cfg.cap) (setDirection .write (drRead k u)))))) ∨
    (u.inst.index = u.inst.cfg.cap ∧ u.inst.cfg.policy = .ignore ∧
      v = releaseClock (setDirection .write (drRead k u))) ∨
    (u.inst.index = u.inst.cfg.cap ∧ u.inst.cfg.policy = .overwrite ∧ (u.inst.buf.read? 0).isSome = true ∧
      v = releaseClock (appended (drValue u) (setIndex 0 (setDirection .write (drRead k u))))) := by
  simp only [doReceive] at h
  split at h
  · next hi =>
    rcases overflowArbiter_next h with ⟨hp, hs, hr, bytes, hb, rfl⟩ | ⟨hp, rfl⟩ | ⟨hp, hs, rfl⟩
    · exact .inr (.inl ⟨hi, hp, hs, hr, bytes, hb, rfl⟩)
    · exact .inr (.inr (.inl ⟨hi, hp, rfl⟩))
    · exact .inr (.inr (.inr ⟨hi, hp, hs, rfl⟩))
  · next hi =>
    obtain ⟨hs, rfl⟩ := appendAndRelease_next_iff.mp h
    exact .inl ⟨hi, hs, rfl⟩

/-- The two arms of `DW` (R91). -/
theorem doDataWrite_next {k : Nat} {u v : Slave} (h : doDataWrite k u = .next v) :
    (u.inst.active = true ∧ doReceive k u = .next v) ∨
    (u.inst.active = false ∧ v = releaseClock (drRead k u)) := by
  unfold doDataWrite at h
  split at h
  · next ha => exact .inl ⟨ha, h⟩
  · next ha => cases h; exact .inr ⟨by simpa using ha, rfl⟩

/-- The buffer stage of `DoTransmit` (R125): `write` when `index = 0` on entry. -/
theorem doTransmit_next {u v : Slave} (h : doTransmit u = .next v) :
    ∃ w x, v = releaseClock x ∧ transmitByte w = .next x ∧
      ((u.inst.index = 0 ∧ u.app.onWrite = .returns ∧
          w = setBuf (u.inst.buf.fill u.app.fill) (logCall .writeCall (setDirection .read u))) ∨
       (u.inst.index ≠ 0 ∧ w = setDirection .read u)) := by
  simp only [doTransmit] at h
  obtain ⟨w, hw, h⟩ := andThen_next_iff.mp h
  obtain ⟨x, hx, h⟩ := andThen_next_iff.mp h
  cases h
  refine ⟨w, x, rfl, hx, ?_⟩
  split at hw
  · next hi =>
    obtain ⟨ho, rfl⟩ := callWrite_next_iff.mp hw
    exact .inl ⟨hi, ho, rfl⟩
  · next hi => cases hw; exact .inr ⟨hi, rfl⟩

/-- The two arms of `DR` (R91). -/
theorem doDataRead_next {ov wcol : Bool} {k : Nat} {u v : Slave} (h : doDataRead ov wcol k u = .next v) :
    (u.inst.active = true ∧ doTransmit u = .next v) ∨ (u.inst.active = false ∧ v = releaseClock u) := by
  unfold doDataRead at h
  split at h
  · next ha => exact .inl ⟨ha, h⟩
  · next ha => cases h; exact .inr ⟨by simpa using ha, rfl⟩

/-- The two arms of `DoStop` (R135). -/
theorem doStop_next {u v : Slave} (h : doStop u = .next v) :
    u.app.onEnd = .returns ∧
    ((u.inst.direction = .write ∧ u.app.onRead = .returns ∧ ∃ bytes, u.inst.buf.payload u.inst.index = some bytes ∧
        v = releaseClock (setActive false (logCall .endCall (logCall (.readCall bytes u.inst.index) u)))) ∨
     (u.inst.direction ≠ .write ∧ v = releaseClock (setActive false (logCall .endCall u)))) := by
  unfold doStop at h
  obtain ⟨w, hw, h⟩ := andThen_next_iff.mp h
  obtain ⟨x, hx, h⟩ := andThen_next_iff.mp h
  obtain ⟨he, rfl⟩ := callEnd_next_iff.mp hx
  cases h
  split at hw
  · next hd =>
    obtain ⟨bytes, hb, hr, rfl⟩ := callRead_next_iff.mp hw
    exact ⟨he, .inl ⟨hd, hr, bytes, hb, rfl⟩⟩
  · next hd => cases hw; exact ⟨he, .inr ⟨hd, rfl⟩⟩

/-- The two arms of `STOP` (R91). -/
theorem doStopEvent_next {k : Nat} {u v : Slave} (h : doStopEvent k u = .next v) :
    (u.inst.active = true ∧ doStop u = .next v) ∨ (u.inst.active = false ∧ v = releaseClock u) := by
  unfold doStopEvent at h
  split at h
  · next ha => exact .inl ⟨ha, h⟩
  · next ha => cases h; exact .inr ⟨by simpa using ha, rfl⟩

/-- Everything `handle` can do to the instance `u` it runs on, one case per path of the rules' pseudocode: the event, what the path
requires, and the instance afterwards. -/
inductive EventEffect (k : Nat) (u : Slave) : Instr → Slave → Prop where
  /-- R100 -/
  | collision : EventEffect k u .col (setActive false (drRead k (releaseClock u)))
  /-- R105 -/
  | addressMatch (addr : SlaveAddr) (hb : u.app.onBegin = .returns) :
      EventEffect k u (.am addr)
        (releaseClock (logCall (.beginCall addr) (setActive true (setDirection .none (setIndex 0 (drRead k u))))))
  /-- R110, the overflow row -/
  | discardOv (wcol : Bool) : EventEffect k u (.dweOv wcol) (releaseClock (clearFlagged true wcol (drRead k u)))
  /-- R110, the write-collision row -/
  | discardWcol : EventEffect k u .dweWcol (releaseClock (clearFlagged false true (drRead k u)))
  /-- R118 -/
  | idleReceive (ha : u.inst.active = false) : EventEffect k u .dw (releaseClock (drRead k u))
  /-- R113 -/
  | append (ha : u.inst.active = true) (hi : u.inst.index ≠ u.inst.cfg.cap)
      (hs : (u.inst.buf.read? u.inst.index).isSome = true) :
      EventEffect k u .dw (releaseClock (appended (drValue u) (setDirection .write (drRead k u))))
  /-- R115 -/
  | flush (bytes : List Byte) (ha : u.inst.active = true) (hi : u.inst.index = u.inst.cfg.cap)
      (hp : u.inst.cfg.policy = .triggerFlush) (hs : (u.inst.buf.read? 0).isSome = true)
      (hr : u.app.onRead = .returns) (hb : u.inst.buf.payload u.inst.cfg.cap = some bytes) :
      EventEffect k u .dw (releaseClock (appended (drValue u)
        (setIndex 0 (logCall (.readCall bytes u.inst.cfg.cap) (setDirection .write (drRead k u))))))
  /-- R116 -/
  | ignore (ha : u.inst.active = true) (hi : u.inst.index = u.inst.cfg.cap) (hp : u.inst.cfg.policy = .ignore) :
      EventEffect k u .dw (releaseClock (setDirection .write (drRead k u)))
  /-- R117 -/
  | overwrite (ha : u.inst.active = true) (hi : u.inst.index = u.inst.cfg.cap)
      (hp : u.inst.cfg.policy = .overwrite) (hs : (u.inst.buf.read? 0).isSome = true) :
      EventEffect k u .dw (releaseClock (appended (drValue u) (setIndex 0 (setDirection .write (drRead k u)))))
  /-- R130 -/
  | idleTransmit (ov wcol : Bool) (ha : u.inst.active = false) : EventEffect k u (.dr ov wcol) (releaseClock u)
  /-- R126 with `index = 0` -/
  | firstByte (ov wcol : Bool) (b : Byte) (ha : u.inst.active = true) (hi : u.inst.index = 0)
      (hw : u.app.onWrite = .returns) (hc : 0 < u.inst.cfg.cap)
      (hb : (u.inst.buf.fill u.app.fill).read? 0 = some b) :
      EventEffect k u (.dr ov wcol) (releaseClock (setIndex 1 (drWrite b
        (setBuf (u.inst.buf.fill u.app.fill) (logCall .writeCall (setDirection .read u))))))
  /-- R126 with `0 < index` -/
  | laterByte (ov wcol : Bool) (b : Byte) (ha : u.inst.active = true) (hi : u.inst.index ≠ 0)
      (hc : u.inst.index < u.inst.cfg.cap) (hb : u.inst.buf.read? u.inst.index = some b) :
      EventEffect k u (.dr ov wcol)
        (releaseClock (setIndex (u.inst.index + 1) (drWrite b (setDirection .read u))))
  /-- R128 -/
  | filler (ov wcol : Bool) (ha : u.inst.active = true) (hi : u.inst.index ≠ 0)
      (hc : ¬u.inst.index < u.inst.cfg.cap) :
      EventEffect k u (.dr ov wcol) (releaseClock (drWrite u.inst.cfg.txFiller (setDirection .read u)))
  /-- a buffer of no cells, which is no configuration (R5) -/
  | fillerNoCell (ov wcol : Bool) (ha : u.inst.active = true) (hi : u.inst.index = 0)
      (hw : u.app.onWrite = .returns) (hc : u.inst.cfg.cap = 0) :
      EventEffect k u (.dr ov wcol) (releaseClock (drWrite u.inst.cfg.txFiller
        (setBuf (u.inst.buf.fill u.app.fill) (logCall .writeCall (setDirection .read u)))))
  /-- R137 -/
  | idleStop (ha : u.inst.active = false) : EventEffect k u .stop (releaseClock u)
  /-- R135 with a pending flush -/
  | stopFlush (bytes : List Byte) (ha : u.inst.active = true) (hd : u.inst.direction = .write)
      (hr : u.app.onRead = .returns) (he : u.app.onEnd = .returns)
      (hb : u.inst.buf.payload u.inst.index = some bytes) :
      EventEffect k u .stop
        (releaseClock (setActive false (logCall .endCall (logCall (.readCall bytes u.inst.index) u))))
  /-- R135 with none -/
  | stopPlain (ha : u.inst.active = true) (hd : u.inst.direction ≠ .write) (he : u.app.onEnd = .returns) :
      EventEffect k u .stop (releaseClock (setActive false (logCall .endCall u)))

theorem EventEffect.of_receive {k : Nat} {u v : Slave} (h : doDataWrite k u = .next v) : EventEffect k u .dw v := by
  rcases doDataWrite_next h with ⟨ha, h⟩ | ⟨ha, rfl⟩
  · rcases doReceive_next h with ⟨hi, hs, rfl⟩ | ⟨hi, hp, hs, hr, bytes, hb, rfl⟩ | ⟨hi, hp, rfl⟩ | ⟨hi, hp, hs, rfl⟩
    · exact .append ha hi hs
    · exact .flush bytes ha hi hp hs hr hb
    · exact .ignore ha hi hp
    · exact .overwrite ha hi hp hs
  · exact .idleReceive ha

theorem EventEffect.of_transmit {ov wcol : Bool} {k : Nat} {u v : Slave} (h : doDataRead ov wcol k u = .next v) :
    EventEffect k u (.dr ov wcol) v := by
  rcases doDataRead_next h with ⟨ha, h⟩ | ⟨ha, rfl⟩
  · obtain ⟨w, x, rfl, hx, ⟨hi, hw, rfl⟩ | ⟨hi, rfl⟩⟩ := doTransmit_next h
    · rcases transmitByte_next_iff.mp hx with ⟨hc, b, hb, rfl⟩ | ⟨hc, rfl⟩
      · simp only [setBuf_inst, logCall_inst, setDirection_inst, hi] at hc hb ⊢
        exact .firstByte ov wcol b ha hi hw hc hb
      · simp only [setBuf_inst, logCall_inst, setDirection_inst, hi] at hc ⊢
        exact .fillerNoCell ov wcol ha hi hw (Nat.eq_zero_of_not_pos hc)
    · rcases transmitByte_next_iff.mp hx with ⟨hc, b, hb, rfl⟩ | ⟨hc, rfl⟩
      · exact .laterByte ov wcol b ha hi hc hb
      · exact .filler ov wcol ha hi hc
  · exact .idleTransmit ov wcol ha

theorem EventEffect.of_stop {k : Nat} {u v : Slave} (h : doStopEvent k u = .next v) : EventEffect k u .stop v := by
  rcases doStopEvent_next h with ⟨ha, h⟩ | ⟨ha, rfl⟩
  · obtain ⟨he, ⟨hd, hr, bytes, hb, rfl⟩ | ⟨hd, rfl⟩⟩ := doStop_next h
    · exact .stopFlush bytes ha hd hr he hb
    · exact .stopPlain ha hd he
  · exact .idleStop ha

/-- The one inversion lemma of `handle`: what an event answers is one of the cases of `EventEffect`. -/
theorem doEvent_next {i : Instr} {k : Nat} {u v : Slave} (h : doEvent i k u = .next v) : EventEffect k u i v := by
  cases i with
  | col => cases h; exact .collision
  | am addr =>
    obtain ⟨hb, rfl⟩ := doAddressMatch_next_iff.mp h
    exact .addressMatch addr hb
  | dw => exact .of_receive h
  | dweOv wcol => cases h; exact .discardOv wcol
  | dweWcol => cases h; exact .discardWcol
  | dr ov wcol => exact .of_transmit h
  | stop => exact .of_stop h

/-- And each case of `EventEffect` happens: the lemma's converse. -/
theorem EventEffect.doEvent_eq {i : Instr} {k : Nat} {u v : Slave} (h : EventEffect k u i v) :
    doEvent i k u = .next v := by
  cases h with
  | collision => rfl
  | addressMatch addr hb => exact doAddressMatch_next_iff.mpr ⟨hb, rfl⟩
  | discardOv => rfl
  | discardWcol => rfl
  | idleReceive ha => simp [doEvent, doDataWrite, ha, doIdleReceive]
  | append ha hi hs =>
    have := (appendAndRelease_next_iff (b := drValue u) (u := setDirection .write (drRead k u))).mpr ⟨hs, rfl⟩
    simpa [doEvent, doDataWrite, ha, doReceive, hi] using this
  | flush bytes ha hi hp hs hr hb =>
    have := (appendAndRelease_next_iff (b := drValue u)
      (u := setIndex 0 (logCall (.readCall bytes u.inst.cfg.cap) (setDirection .write (drRead k u))))).mpr ⟨hs, rfl⟩
    simpa [doEvent, doDataWrite, ha, doReceive, hi, overflowArbiter, hp, callRead, hb, hr, callBack] using this
  | ignore ha hi hp => simp [doEvent, doDataWrite, ha, doReceive, hi, overflowArbiter, hp]
  | overwrite ha hi hp hs =>
    have := (appendAndRelease_next_iff (b := drValue u)
      (u := setIndex 0 (setDirection .write (drRead k u)))).mpr ⟨hs, rfl⟩
    simpa [doEvent, doDataWrite, ha, doReceive, hi, overflowArbiter, hp] using this
  | idleTransmit ov wcol ha => simp [doEvent, doDataRead, ha, doIdleTransmit]
  | firstByte ov wcol b ha hi hw hc hb =>
    simp [doEvent, doDataRead, ha, doTransmit, hi, callWrite, callBack, hw, transmitByte, hc, hb]
  | laterByte ov wcol b ha hi hc hb => simp [doEvent, doDataRead, ha, doTransmit, hi, transmitByte, hc, hb]
  | filler ov wcol ha hi hc => simp [doEvent, doDataRead, ha, doTransmit, hi, transmitByte, hc]
  | fillerNoCell ov wcol ha hi hw hc =>
    simp [doEvent, doDataRead, ha, doTransmit, hi, callWrite, callBack, hw, transmitByte, hc]
  | idleStop ha => simp [doEvent, doStopEvent, ha, doIdleStop]
  | stopFlush bytes ha hd hr he hb =>
    simp [doEvent, doStopEvent, ha, doStop, hd, callRead, hb, hr, callEnd, callBack, he]
  | stopPlain ha hd he => simp [doEvent, doStopEvent, ha, doStop, hd, callEnd, callBack, he]

/-- Every way `handle` can be stuck, one case per call site of a callback (R160, R180): the event, what the site requires, and the
instance where it is stuck, with the earlier actions done and no release among them. -/
inductive StuckAt (k : Nat) (u : Slave) : Instr → Callback → Slave → Prop where
  /-- R105 -/
  | inBegin (addr : SlaveAddr) (h : u.app.onBegin = .neverReturns) :
      StuckAt k u (.am addr) .begin (setActive true (setDirection .none (setIndex 0 (drRead k u))))
  /-- R115 -/
  | inFlush (ha : u.inst.active = true) (hi : u.inst.index = u.inst.cfg.cap) (hp : u.inst.cfg.policy = .triggerFlush)
      (h : u.app.onRead = .neverReturns) : StuckAt k u .dw .read (setDirection .write (drRead k u))
  /-- R125 -/
  | inWrite (ov wcol : Bool) (ha : u.inst.active = true) (hi : u.inst.index = 0) (h : u.app.onWrite = .neverReturns) :
      StuckAt k u (.dr ov wcol) .write (setDirection .read u)
  /-- R135, the stop-time `read` -/
  | inStopRead (ha : u.inst.active = true) (hd : u.inst.direction = .write) (h : u.app.onRead = .neverReturns) :
      StuckAt k u .stop .read u
  /-- R135, the `end` after it -/
  | inEndAfterRead (bytes : List Byte) (ha : u.inst.active = true) (hd : u.inst.direction = .write)
      (hb : u.inst.buf.payload u.inst.index = some bytes) (h : u.app.onEnd = .neverReturns) :
      StuckAt k u .stop .endTx (logCall (.readCall bytes u.inst.index) u)
  /-- R135, the `end` with nothing to flush -/
  | inEnd (ha : u.inst.active = true) (hd : u.inst.direction ≠ .write) (h : u.app.onEnd = .neverReturns) :
      StuckAt k u .stop .endTx u

theorem appendAndRelease_not_stuck {b : Byte} {u v : Slave} {c : Callback} :
    appendAndRelease b u ≠ .fault (.stuckInCallback c v) := by
  simp [appendAndRelease, andThen_fault_iff, appendByte_not_stuck]

theorem StuckAt.of_receive {k : Nat} {u v : Slave} {c : Callback}
    (h : doDataWrite k u = .fault (.stuckInCallback c v)) : StuckAt k u .dw c v := by
  unfold doDataWrite at h
  split at h
  · next ha =>
    simp only [doReceive] at h
    split at h
    · next hi =>
      unfold overflowArbiter at h
      split at h
      · next hp =>
        rcases andThen_fault_iff.mp h with h | ⟨w, -, h⟩
        · obtain ⟨-, hr, rfl, rfl⟩ := callRead_stuck_iff.mp h
          exact .inFlush ha hi hp hr
        · exact absurd h appendAndRelease_not_stuck
      · cases h
      · exact absurd h appendAndRelease_not_stuck
    · exact absurd h appendAndRelease_not_stuck
  · cases h

theorem StuckAt.of_transmit {ov wcol : Bool} {k : Nat} {u v : Slave} {c : Callback}
    (h : doDataRead ov wcol k u = .fault (.stuckInCallback c v)) : StuckAt k u (.dr ov wcol) c v := by
  unfold doDataRead at h
  split at h
  · next ha =>
    simp only [doTransmit] at h
    rcases andThen_fault_iff.mp h with h | ⟨w, -, h⟩
    · split at h
      · next hi =>
        obtain ⟨hw, he⟩ := callWrite_fault_iff.mp h
        cases he
        exact .inWrite ov wcol ha hi hw
      · cases h
    · rcases andThen_fault_iff.mp h with h | ⟨x, -, h⟩
      · exact absurd h transmitByte_not_stuck
      · cases h
  · cases h

theorem StuckAt.of_stop {k : Nat} {u v : Slave} {c : Callback}
    (h : doStopEvent k u = .fault (.stuckInCallback c v)) : StuckAt k u .stop c v := by
  unfold doStopEvent at h
  split at h
  · next ha =>
    unfold doStop at h
    rcases andThen_fault_iff.mp h with h | ⟨w, hw, h⟩
    · split at h
      · next hd =>
        obtain ⟨-, hr, rfl, rfl⟩ := callRead_stuck_iff.mp h
        exact .inStopRead ha hd hr
      · cases h
    · rcases andThen_fault_iff.mp h with h | ⟨x, -, h⟩
      · obtain ⟨he, hv⟩ := callBack_fault_iff.mp h
        cases hv
        split at hw
        · next hd =>
          obtain ⟨bytes, hb, -, rfl⟩ := callRead_next_iff.mp hw
          exact .inEndAfterRead bytes ha hd hb he
        · next hd =>
          cases hw
          exact .inEnd ha hd he
      · cases h
  · cases h

/-- The inversion lemma of a stuck `handle`. -/
theorem doEvent_stuck {i : Instr} {k : Nat} {u v : Slave} {c : Callback}
    (h : doEvent i k u = .fault (.stuckInCallback c v)) : StuckAt k u i c v := by
  cases i with
  | col => cases h
  | am addr =>
    rcases andThen_fault_iff.mp h with h | ⟨w, -, h⟩
    · obtain ⟨hb, he⟩ := callBack_fault_iff.mp h
      cases he
      exact .inBegin addr hb
    · cases h
  | dw => exact .of_receive h
  | dweOv wcol => cases h
  | dweWcol => cases h
  | dr ov wcol => exact .of_transmit h
  | stop => exact .of_stop h

/-- The same for `exec`. -/
theorem exec_stuck {i : Instr} {s : State} {v : Slave} {c : Callback}
    (h : exec i s = .fault (.stuckInCallback c v)) : ∃ u, current? s = some u ∧ StuckAt s.cur u i c v := by
  rw [exec_eq_onCurrent] at h
  obtain ⟨u, hu, h⟩ := onCurrent_fault_iff.mp h
  exact ⟨u, hu, doEvent_stuck h⟩

/-- The same for `exec`, on the instance whose event is handled. -/
theorem EventEffect.exec_eq {i : Instr} {s : State} {u v : Slave} (h : EventEffect s.cur u i v)
    (hu : current? s = some u) : exec i s = .next (putCurrent s v) :=
  exec_next_iff.mpr ⟨u, v, hu, h.doEvent_eq, rfl⟩

/-- The same for `exec`: the instance whose event is handled is replaced by one of the cases of `EventEffect`. -/
theorem exec_next {i : Instr} {s t : State} (h : exec i s = .next t) :
    ∃ u v, current? s = some u ∧ EventEffect s.cur u i v ∧ t = putCurrent s v := by
  obtain ⟨u, v, hu, hv, ht⟩ := exec_next_iff.mp h
  exact ⟨u, v, hu, doEvent_next hv, ht⟩

/-- The same, of the instances the caller names. -/
theorem exec_next_current {i : Instr} {s t : State} {u v : Slave} (hu : current? s = some u)
    (h : exec i s = .next t) (hv : current? t = some v) : EventEffect s.cur u i v ∧ t = putCurrent s v := by
  obtain ⟨u', v', hu', he, rfl⟩ := exec_next h
  cases hu.symm.trans hu'
  cases (current?_putCurrent hu v').symm.trans hv
  exact ⟨he, rfl⟩

end Sys2Proof.Machine
end

