-- ==== Sys2Proof/Laws/PerInstr.lean ====
section
/-!
SUPPORT. Statements made per event of the opcode table: the family `EncodingFitsTable`.
-/

namespace Sys2Proof.Laws.EncodingFitsTable

/-- R74: the word of an event is selected by the event's own row of the opcode table, and by no other row. -/
def Statement (i : Instr) : Prop :=
  opcodeRow i ∈ opcodeTable ∧ ∀ r ∈ opcodeTable, r.selects (encode i) = true ↔ r = opcodeRow i

theorem col : Statement .col := by unfold Statement; decide

/-- Every 7-bit address, one by one. -/
theorem am (addr : SlaveAddr) : Statement (.am addr) := by
  have h : ∀ a : SlaveAddr,
      opcodeRow (.am a) ∈ opcodeTable ∧
        ∀ r ∈ opcodeTable, r.selects (encode (.am a)) = true ↔ r = opcodeRow (.am a) := by decide
  exact h addr

theorem dw : Statement .dw := by unfold Statement; decide

theorem dweOv (wcol : Bool) : Statement (.dweOv wcol) := by
  cases wcol <;> (unfold Statement; decide)

theorem dweWcol : Statement .dweWcol := by unfold Statement; decide

theorem dr (ov wcol : Bool) : Statement (.dr ov wcol) := by
  cases ov <;> cases wcol <;> (unfold Statement; decide)

theorem stop : Statement .stop := by unfold Statement; decide

end Sys2Proof.Laws.EncodingFitsTable
end

