-- ==== Sys2Proof/Laws/Step.lean ====
section
/-!
SUPPORT. Everything one step can do, said once (R60, R92, R178, R200).
-/

namespace Sys2Proof.Machine

/-- An entry is refused, or its first event is accepted. -/
theorem fetchEntry_cases (k : Nat) (stretch : Bool) (e : Presented) (co : Option Presented) (rest : List Input)
    (s : State) :
    (∃ r, fetchEntry k stretch e co rest s = .refuse r) ∨
    (∃ u i, s.slaves[k]? = some u ∧ decode e.word = .ok i ∧ coincidenceOk i co = true ∧
      fetchEntry k stretch e co rest s = .event i (acceptInto k stretch e u (afterFirst k co rest) s)) := by
  unfold fetchEntry
  split
  · exact .inl ⟨_, rfl⟩
  · next u hu =>
    split
    · exact .inl ⟨_, rfl⟩
    · next i hi =>
      split
      · next hc => exact .inr ⟨u, i, hu, hi, hc, rfl⟩
      · exact .inl ⟨_, rfl⟩

/-- An entry of one event for an instance that exists is accepted when its word is legal. -/
theorem fetchEntry_single {k : Nat} {stretch : Bool} {e : Presented} {rest : List Input} {s : State} {u : Slave}
    {i : Instr} (hu : s.slaves[k]? = some u) (hi : decode e.word = .ok i) :
    fetchEntry k stretch e none rest s = .event i (acceptInto k stretch e u rest s) := by
  simp [fetchEntry, hu, hi, coincidenceOk, afterFirst]

/-- A reset is refused, or done. -/
theorem fetchReset_cases (k : Nat) (rest : List Input) (s : State) :
    (∃ r, fetchReset k rest s = .refuse r) ∨
    (∃ u, s.slaves[k]? = some u ∧
      fetchReset k rest s = .resetDone { s with slaves := s.slaves.set k (resetSlave k u), pending := rest }) := by
  unfold fetchReset
  split
  · exact .inl ⟨_, rfl⟩
  · next u hu => exact .inr ⟨u, hu, rfl⟩

/-- Every way a step answers a next state: it waits, it resets an instance, or it handles one accepted event. -/
theorem step_next {s t : State} (h : step s = .next t) :
    (s.pending = [] ∧ t = s) ∨
    (∃ k rest u, s.pending = .reset k :: rest ∧ s.slaves[k]? = some u ∧
      t = { s with slaves := s.slaves.set k (resetSlave k u), pending := rest }) ∨
    (∃ k stretch e co rest u i, s.pending = .entry k stretch e co :: rest ∧ s.slaves[k]? = some u ∧
      decode e.word = .ok i ∧ coincidenceOk i co = true ∧
      exec i (acceptInto k stretch e u (afterFirst k co rest) s) = .next t) := by
  cases hp : s.pending with
  | nil =>
    simp only [step, fetch, hp, Host.Outcome.next.injEq] at h
    exact .inl ⟨rfl, h.symm⟩
  | cons x rest =>
    cases x with
    | entry k stretch e co =>
      rcases fetchEntry_cases k stretch e co rest s with ⟨r, hr⟩ | ⟨u, i, hu, hi, hc, hr⟩
      · simp [step, fetch, hp, hr] at h
      · simp only [step, fetch, hp, hr] at h
        exact .inr (.inr ⟨k, stretch, e, co, rest, u, i, rfl, hu, hi, hc, h⟩)
    | reset k =>
      rcases fetchReset_cases k rest s with ⟨r, hr⟩ | ⟨u, hu, hr⟩
      · simp [step, fetch, hp, hr] at h
      · simp only [step, fetch, hp, hr, Host.Outcome.next.injEq] at h
        exact .inr (.inl ⟨k, rest, u, rfl, hu, h.symm⟩)

/-- Every way a step faults: the event at the head of the queue was accepted, and its meaning faulted. -/
theorem step_fault {s : State} {r : Fault} (h : step s = .fault r) :
    ∃ k stretch e co rest u i, s.pending = .entry k stretch e co :: rest ∧ s.slaves[k]? = some u ∧
      decode e.word = .ok i ∧ coincidenceOk i co = true ∧
      exec i (acceptInto k stretch e u (afterFirst k co rest) s) = .fault r := by
  cases hp : s.pending with
  | nil => simp [step, fetch, hp] at h
  | cons x rest =>
    cases x with
    | entry k stretch e co =>
      rcases fetchEntry_cases k stretch e co rest s with ⟨_, hr⟩ | ⟨u, i, hu, hi, hc, hr⟩
      · simp [step, fetch, hp, hr] at h
      · simp only [step, fetch, hp, hr] at h
        exact ⟨k, stretch, e, co, rest, u, i, rfl, hu, hi, hc, h⟩
    | reset k =>
      rcases fetchReset_cases k rest s with ⟨_, hr⟩ | ⟨u, hu, hr⟩
      · simp [step, fetch, hp, hr] at h
      · simp [step, fetch, hp, hr] at h

/-- The instance an accepted event is handled on. -/
theorem current?_acceptInto {k : Nat} {stretch : Bool} {e : Presented} {u : Slave} {rest : List Input} {s : State}
    (h : s.slaves[k]? = some u) :
    current? (acceptInto k stretch e u rest s) = some (acceptEvent stretch e u) := by
  have hk : k < s.slaves.length := (List.getElem?_eq_some_iff.mp h).1
  simp [current?, acceptInto, hk]

/-! ### Several steps, of any machine behind the host's interface and of this one -/

theorem run_zero_iff (M : Host.Core) (s t : M.State) : M.run 0 s = .next t ↔ s = t := by
  have h : M.run 0 s = .next s := rfl
  simp [h]

theorem run_succ_iff (M : Host.Core) (n : Nat) (s t : M.State) :
    M.run (n + 1) s = .next t ↔ ∃ s', M.step s = .next s' ∧ M.run n s' = .next t := by
  have h : M.run (n + 1) s =
      (match M.step s with
        | .next s' => M.run n s'
        | .fault r => .fault r
        | .refused r => .refused r) := rfl
  rw [h]
  cases M.step s <;> simp

theorem run_add_iff (M : Host.Core) (m n : Nat) (s t : M.State) :
    M.run (m + n) s = .next t ↔ ∃ s', M.run m s = .next s' ∧ M.run n s' = .next t := by
  induction m generalizing s with
  | zero => simp [run_zero_iff]
  | succ m ih =>
    rw [Nat.succ_add, run_succ_iff]
    simp only [run_succ_iff, ih]
    constructor
    · rintro ⟨s₁, h₁, s₂, h₂, h₃⟩
      exact ⟨s₂, ⟨s₁, h₁, h₂⟩, h₃⟩
    · rintro ⟨s₂, ⟨s₁, h₁, h₂⟩, h₃⟩
      exact ⟨s₁, h₁, s₂, h₂, h₃⟩

theorem core_run_zero {s t : State} : core.run 0 s = .next t ↔ s = t := run_zero_iff core s t

theorem core_run_succ {n : Nat} {s t : State} :
    core.run (n + 1) s = .next t ↔ ∃ s', step s = .next s' ∧ core.run n s' = .next t :=
  run_succ_iff core n s t

theorem core_run_add {m n : Nat} {s t : State} :
    core.run (m + n) s = .next t ↔ ∃ s', core.run m s = .next s' ∧ core.run n s' = .next t :=
  run_add_iff core m n s t

end Sys2Proof.Machine
end

