-- ==== Sys2Proof/Tests/Slice0.lean ====
section
/-!
SUPPORT. The model's own tests: ill-formed terms, words written out from 30_encoding.md, one step each from
95_test_vectors.md, and for every obligation with hypotheses a theorem that meets them all together.
-/

namespace Sys2Proof.Tests

open Sys2Proof Sys2Proof.Machine

/-! ### Ill-formed terms are refused (R5, R6, R92, U1, U8) -/

theorem test_wf_events_are_well_formed : (Instr.am 0x7F).wellFormed = true ∧ (Instr.dweOv true).wellFormed = true := by decide
theorem test_wf_capacity_zero : InstConfig.capLegal ⟨0, 0x2A, .ignore, 0xFF⟩ = false := by decide
theorem test_wf_capacity_one : InstConfig.legal ⟨1, 0x2A, .ignore, 0xFF⟩ = true := by decide
theorem test_wf_address_below : InstConfig.addressLegal ⟨4, 7, .ignore, 0xFF⟩ = false := by decide
theorem test_wf_address_above : InstConfig.addressLegal ⟨4, 120, .ignore, 0xFF⟩ = false := by decide
theorem test_wf_address_bounds :
    InstConfig.legal ⟨4, 8, .ignore, 0xFF⟩ = true ∧ InstConfig.legal ⟨4, 119, .ignore, 0xFF⟩ = true := by decide
theorem test_wf_two_collisions : Instr.mayCoincide .col .col = false := by decide
theorem test_wf_data_first : Instr.mayCoincide .dw .col = false := by decide
theorem test_wf_collision_and_stop : Instr.mayCoincide .col .stop = true := by decide
theorem test_wf_policy_code : configure 4 0x2A 0b11 0xFF = .error .policy := rfl
theorem test_wf_configured_address : configure 4 120 0b01 0xFF = .error .address := rfl
theorem test_wf_configured_capacity : configure 0 0x2A 0b01 0xFF = .error .capacity := rfl

/-! ### Words written out bit by bit: `kind` [9:8], payload [7:0] (R71 to R75; 95_test_vectors.md part 4) -/

theorem test_decode_col : decode 0b0000000000#10 = .ok .col := rfl
theorem test_decode_am : decode 0b0100101010#10 = .ok (.am 0x2A) := rfl
theorem test_decode_am_top : decode 0b0101111111#10 = .ok (.am 0x7F) := rfl
theorem test_decode_dw : decode 0b1000000000#10 = .ok .dw := rfl
theorem test_decode_dwe_ov : decode 0b1000000010#10 = .ok (.dweOv false) := rfl
theorem test_decode_dwe_ov_wcol : decode 0b1000000110#10 = .ok (.dweOv true) := rfl
theorem test_decode_dwe_wcol : decode 0b1000000100#10 = .ok .dweWcol := rfl
theorem test_decode_dr : decode 0b1000000001#10 = .ok (.dr false false) := rfl
theorem test_decode_dr_ov : decode 0b1000000011#10 = .ok (.dr true false) := rfl
theorem test_decode_dr_wcol : decode 0b1000000101#10 = .ok (.dr false true) := rfl
theorem test_decode_dr_both : decode 0b1000000111#10 = .ok (.dr true true) := rfl
theorem test_decode_stop : decode 0b1100000000#10 = .ok .stop := rfl
theorem test_decode_reserved_col : decode 0x001 = .error .collisionPayload ∧ decode 0x080 = .error .collisionPayload ∧
    decode 0x0FF = .error .collisionPayload := ⟨rfl, rfl, rfl⟩
theorem test_decode_reserved_am : decode 0x180 = .error .addressBit7 ∧ decode 0x1AA = .error .addressBit7 ∧
    decode 0x1FF = .error .addressBit7 := ⟨rfl, rfl, rfl⟩
theorem test_decode_reserved_data : decode 0x208 = .error .dataBits ∧ decode 0x210 = .error .dataBits ∧
    decode 0x280 = .error .dataBits ∧ decode 0x2FF = .error .dataBits := ⟨rfl, rfl, rfl, rfl⟩
theorem test_decode_reserved_stop : decode 0x301 = .error .stopPayload ∧ decode 0x3FF = .error .stopPayload := ⟨rfl, rfl⟩
theorem test_table_word : decodeTableWord 16 0x12A = some (.am 0x2A) := rfl
theorem test_table_word_too_wide : decodeTableWord 16 0x400 = none := rfl

/-- A placed word runs as the first event after reset. -/
theorem test_placed_word_runs :
    (match step (State.reset.withFetchWord 16 0x300) with
      | .next t => (current? t).map Slave.trace
      | _ => none) = some [.rel] := rfl

/-! ### Small states -/

/-- An instance at address `0x2A` with the bytes `cells` in its buffer. -/
def instWith (active : Bool) (index : Nat) (direction : Direction) (cells : List Byte) (policy : Policy) : Instance where
  cfg := ⟨cells.length, 0x2A, policy, 0xFF⟩
  active := active
  index := index
  direction := direction
  buf := (List.range cells.length).zip cells

/-- That instance, its clock held, `dr` in its data register, every condition reported. -/
def slaveWith (active : Bool) (index : Nat) (direction : Direction) (cells : List Byte) (policy : Policy) (dr : Byte)
    (app : AppAnswer) : Slave where
  inst := instWith active index direction cells policy
  adapter := ⟨dr, true, true, true, true⟩
  app := app
  trace := []
  calls := []
  draws := 0

/-- A machine of two instances, the first of which is `u`. -/
def machineOf (u : Slave) (pending : List Input) : State :=
  ⟨[u, slaveWith false 0 .none [0x61, 0x62] .ignore 0 .quiet], 0, pending⟩

/-- The registers of the vectors' notation and the trace after one event on `u`. -/
def after (i : Instr) (u : Slave) : Option (Bool × Nat × Direction × List Byte × List Action) :=
  match exec i (machineOf u []) with
  | .next t => (current? t).map fun v =>
      (v.inst.active, v.inst.index, v.inst.direction, v.inst.buf.map Prod.snd, v.trace)
  | _ => none

/-! ### One step each (95_test_vectors.md part 2) -/

/-- V-COL-1. -/
theorem test_col_mid_transaction :
    after .col (slaveWith true 2 .write [1, 2, 9] .triggerFlush 5 .quiet) =
      some (false, 2, .write, [1, 2, 9], [.rel, .drr]) := rfl
/-- V-COL-2. -/
theorem test_col_idle :
    after .col (slaveWith false 2 .write [1, 2, 9] .triggerFlush 5 .quiet) =
      some (false, 2, .write, [1, 2, 9], [.rel, .drr]) := rfl
/-- V-AM-3. -/
theorem test_am_repeated_start :
    after (.am 0x2A) (slaveWith true 3 .write [9, 8, 7] .triggerFlush 5 .quiet) =
      some (true, 0, .none, [9, 8, 7], [.drr, .beginCall 0x2A, .rel]) := rfl
/-- V-AM-5: an address the register does not hold. -/
theorem test_am_other_address :
    after (.am 0x7F) (slaveWith false 0 .none [9, 8, 7] .triggerFlush 5 .quiet) =
      some (true, 0, .none, [9, 8, 7], [.drr, .beginCall 0x7F, .rel]) := rfl
/-- V-DWE-3. -/
theorem test_dwe_ov_wcol :
    after (.dweOv true) (slaveWith true 1 .write [5, 6, 7] .triggerFlush 9 .quiet) =
      some (true, 1, .write, [5, 6, 7], [.drr, .clrOv, .clrWcol, .rel]) := rfl
/-- V-DWE-4: a full buffer is not flushed. -/
theorem test_dwe_ov_full :
    after (.dweOv false) (slaveWith true 3 .write [1, 2, 3] .triggerFlush 9 .quiet) =
      some (true, 3, .write, [1, 2, 3], [.drr, .clrOv, .rel]) := rfl
/-- V-DWE-2. -/
theorem test_dwe_wcol :
    after .dweWcol (slaveWith true 1 .write [5, 6, 7] .triggerFlush 9 .quiet) =
      some (true, 1, .write, [5, 6, 7], [.drr, .clrWcol, .rel]) := rfl
/-- V-DWE-6. -/
theorem test_dwe_wcol_idle :
    after .dweWcol (slaveWith false 2 .write [5, 6, 7] .triggerFlush 9 .quiet) =
      some (false, 2, .write, [5, 6, 7], [.drr, .clrWcol, .rel]) := rfl
/-- V-DW-2, its fourth byte (program P1, step 5). -/
theorem test_dw_flush :
    after .dw (slaveWith true 3 .write [1, 2, 3] .triggerFlush 4 .quiet) =
      some (true, 1, .write, [4, 2, 3], [.drr, .readCall [1, 2, 3] 3, .rel]) := rfl
/-- V-DW-22: the direction is written although the byte is dropped. -/
theorem test_dw_ignored :
    after .dw (slaveWith true 2 .read [0xA, 0xB] .ignore 3 .quiet) =
      some (true, 2, .write, [0xA, 0xB], [.drr, .rel]) := rfl
/-- V-DR-8. -/
theorem test_dr_first_byte :
    after (.dr true false) (slaveWith true 0 .none [9, 9, 9, 9] .ignore 0 { AppAnswer.quiet with fill := [1, 2, 3, 4] }) =
      some (true, 1, .read, [1, 2, 3, 4], [.writeCall, .drw 1, .rel]) := rfl
/-- V-DR-12. -/
theorem test_dr_past_the_end :
    after (.dr false false) (slaveWith true 4 .write [1, 2, 3, 4] .ignore 0 .quiet) =
      some (true, 4, .read, [1, 2, 3, 4], [.drw 0xFF, .rel]) := rfl
/-- V-ST-1. -/
theorem test_stop_flush :
    after .stop (slaveWith true 2 .write [4, 5, 3] .triggerFlush 0 .quiet) =
      some (false, 2, .write, [4, 5, 3], [.readCall [4, 5] 2, .endCall, .rel]) := rfl
/-- V-ST-3. -/
theorem test_stop_after_read :
    after .stop (slaveWith true 3 .read [1, 2, 3, 4] .triggerFlush 0 .quiet) =
      some (false, 3, .read, [1, 2, 3, 4], [.endCall, .rel]) := rfl

/-! ### Witnesses: the hypotheses of each obligation, met together -/

/-- Mid-transaction, two of three bytes received. -/
def writing : Slave := slaveWith true 2 .write [1, 2, 3] .triggerFlush 0x44 .quiet
/-- Mid-transaction, nothing received yet. -/
def opened : Slave := slaveWith true 0 .none [1, 2, 3] .triggerFlush 0x44 { AppAnswer.quiet with fill := [7] }
/-- Mid-transaction, the buffer full, by policy. -/
def full (p : Policy) : Slave := slaveWith true 3 .write [1, 2, 3] p 0x44 .quiet
/-- Mid-transaction, one of three bytes sent. -/
def reading : Slave := slaveWith true 1 .read [1, 2, 3] .triggerFlush 0x44 .quiet
/-- Idle. -/
def idle : Slave := slaveWith false 2 .write [1, 2, 3] .triggerFlush 0x44 .quiet
/-- A buffer of one cell, full. -/
def tiny (p : Policy) : Slave := slaveWith true 1 .write [1] p 0x44 .quiet
/-- `u` with another application. -/
def withApp (u : Slave) (app : AppAnswer) : Slave := { u with app := app }

theorem witness_current (u : Slave) : current? (machineOf u []) = some u := rfl
theorem witness_invariant : (machineOf writing []).Inv ∧ (machineOf opened []).Inv ∧ (machineOf (full .ignore) []).Inv ∧
    (machineOf reading []).Inv ∧ (machineOf idle []).Inv ∧ (machineOf (tiny .overwrite) []).Inv := by
  refine ⟨?_, ?_, ?_, ?_, ?_, ?_⟩ <;> decide

theorem witness_LegalWordHasOneMeaning : decode 0x206 = .ok (.dweOv true) := rfl
theorem witness_DecoderFollowsOpcodeTable :
    decode 0x17F = .ok (.am 0x7F) ∧ decode 0x180 = .error .addressBit7 ∧ opcodeRow .dw ∈ opcodeTable :=
  ⟨rfl, rfl, by decide⟩
theorem witness_ReservedWordsAreRefused :
    (machineOf writing [.entry 0 true (plainEvent 0x001) none]).pending =
        .entry 0 true (plainEvent 0x001) none :: [] ∧
      (machineOf writing [.entry 0 true (plainEvent 0x001) none]).slaves[0]? = some writing ∧
      decode (plainEvent 0x001).word = .error .collisionPayload := ⟨rfl, rfl, rfl⟩
theorem witness_StepHandlesDecodedEvent :
    (machineOf writing [entryOf 0 .dw 9 []]).pending = .entry 0 true (presentEvent .dw 9 []) none :: [] ∧
      (machineOf writing [entryOf 0 .dw 9 []]).slaves[0]? = some writing ∧
      decode (presentEvent .dw 9 []).word = .ok .dw := ⟨rfl, rfl, rfl⟩
theorem witness_CoincidentEntryIsTwoEvents :
    (machineOf writing [collisionWith 0 .dw 9 []]).pending =
        .entry 0 true (presentEvent .col 9 []) (some (presentEvent .dw 9 [])) :: [] ∧
      decode (presentEvent .col 9 []).word = .ok .col ∧ decode (presentEvent .dw 9 []).word = .ok .dw ∧
      Instr.dw ≠ .col := ⟨rfl, rfl, rfl, by decide⟩
/-- `DW & COL` and `COL & COL`. -/
theorem witness_OtherCoincidencesAreRefused :
    (∃ s : State, s.pending = .entry 0 true (plainEvent 0x200) (some (plainEvent 0x000)) :: [] ∧
      s.slaves[0]? = some writing ∧ decode (plainEvent 0x200).word = .ok .dw ∧
      decode (plainEvent 0x000).word = .ok .col ∧ Instr.dw ≠ .col) ∧
    (∃ s : State, s.pending = .entry 0 true (plainEvent 0x000) (some (plainEvent 0x000)) :: [] ∧
      s.slaves[0]? = some writing ∧ decode (plainEvent 0x000).word = .ok .col) :=
  ⟨⟨machineOf writing [.entry 0 true (plainEvent 0x200) (some (plainEvent 0x000))], rfl, rfl, rfl, rfl, by decide⟩,
    ⟨machineOf writing [.entry 0 true (plainEvent 0x000) (some (plainEvent 0x000))], rfl, rfl, rfl⟩⟩
theorem witness_EngineWaitsForEvents : (machineOf writing []).pending = [] := rfl
/-- One entry, a coincident entry, a reset: each is taken. -/
theorem witness_InputsAreTakenInOrder :
    (∃ t, step (machineOf writing [entryOf 0 .dw 9 []]) = .next t) ∧
    (∃ t, step (machineOf writing [collisionWith 0 .dw 9 []]) = .next t) ∧
    (∃ t, step (machineOf writing [.reset 0]) = .next t) := ⟨⟨_, rfl⟩, ⟨_, rfl⟩, ⟨_, rfl⟩⟩
theorem witness_ResetValues : State.reset.slaves[0]? = some (Slave.afterReset 0) := rfl
theorem witness_ResetInputLoadsResetValues :
    (machineOf writing [.reset 0]).pending = .reset 0 :: [] ∧
      (machineOf writing [.reset 0]).slaves[0]? = some writing := ⟨rfl, rfl⟩

theorem witness_CollisionEffect : current? (machineOf writing []) = some writing := rfl
theorem witness_AddressMatchEffect :
    current? (machineOf writing []) = some writing ∧ writing.app.onBegin = .returns := ⟨rfl, rfl⟩
theorem witness_FlaggedByteIsDiscarded : current? (machineOf (full .triggerFlush) []) = some (full .triggerFlush) := rfl
/-- At the first and at the last cell. -/
theorem witness_ReceivedByteIsAppended :
    (current? (machineOf opened []) = some opened ∧ opened.inst.active = true ∧
      opened.inst.buf.wf opened.inst.cfg.cap ∧ opened.inst.index < opened.inst.cfg.cap) ∧
    (current? (machineOf writing []) = some writing ∧ writing.inst.active = true ∧
      writing.inst.buf.wf writing.inst.cfg.cap ∧ writing.inst.index + 1 = writing.inst.cfg.cap) := by
  refine ⟨⟨rfl, ?_⟩, ⟨rfl, ?_⟩⟩ <;> decide
theorem witness_FullBufferTriggersFlush :
    ∀ u ∈ [full .triggerFlush, tiny .triggerFlush], current? (machineOf u []) = some u ∧ u.inst.active = true ∧
      u.inst.buf.wf u.inst.cfg.cap ∧ 1 ≤ u.inst.cfg.cap ∧ u.inst.index = u.inst.cfg.cap ∧
      u.inst.cfg.policy = .triggerFlush ∧ u.app.onRead = .returns := by decide
theorem witness_FullBufferIgnoresByte :
    ∀ u ∈ [full .ignore, tiny .ignore], current? (machineOf u []) = some u ∧ u.inst.active = true ∧
      u.inst.index = u.inst.cfg.cap ∧ u.inst.cfg.policy = .ignore := by decide
theorem witness_FullBufferIsOverwritten :
    ∀ u ∈ [full .overwrite, tiny .overwrite], current? (machineOf u []) = some u ∧ u.inst.active = true ∧
      u.inst.buf.wf u.inst.cfg.cap ∧ 1 ≤ u.inst.cfg.cap ∧ u.inst.index = u.inst.cfg.cap ∧
      u.inst.cfg.policy = .overwrite := by decide
theorem witness_IdleReceiveDiscards : current? (machineOf idle []) = some idle ∧ idle.inst.active = false := by decide
theorem witness_FirstByteCallsWrite :
    current? (machineOf opened []) = some opened ∧ opened.inst.active = true ∧
      opened.inst.buf.wf opened.inst.cfg.cap ∧ 1 ≤ opened.inst.cfg.cap ∧ opened.inst.index = 0 ∧
      opened.app.onWrite = .returns := by decide
/-- At the first index and at the last one below `CAP`. -/
theorem witness_LaterByteIsTransmitted :
    ∀ u ∈ [reading, writing], current? (machineOf u []) = some u ∧ u.inst.active = true ∧
      u.inst.buf.wf u.inst.cfg.cap ∧ 0 < u.inst.index ∧ u.inst.index < u.inst.cfg.cap := by decide
theorem witness_FillerPastCapacity :
    ∀ u ∈ [full .ignore, tiny .ignore], current? (machineOf u []) = some u ∧ u.inst.active = true ∧
      1 ≤ u.inst.cfg.cap ∧ u.inst.index = u.inst.cfg.cap := by decide
theorem witness_IdleTransmitLoadsNothing : current? (machineOf idle []) = some idle ∧ idle.inst.active = false := by decide
theorem witness_TransmitIgnoresFlags :
    ∃ t v, current? (machineOf reading []) = some reading ∧ exec (.dr true true) (machineOf reading []) = .next t ∧
      current? t = some v ∧ reading.adapter.rxOverflow = true := ⟨_, _, rfl, rfl, rfl, rfl⟩
/-- First clause: one byte, and a full buffer. -/
theorem witness_StopClosesTransaction_after_write :
    ∀ u ∈ [tiny .ignore, full .ignore, writing], current? (machineOf u []) = some u ∧ u.inst.active = true ∧
      u.inst.direction = .write ∧ u.inst.buf.wf u.inst.cfg.cap ∧ u.inst.index ≤ u.inst.cfg.cap ∧
      u.app.onRead = .returns ∧ u.app.onEnd = .returns := by decide
/-- Second clause: nothing exchanged, and bytes sent. -/
theorem witness_StopClosesTransaction_otherwise :
    ∀ u ∈ [opened, reading], current? (machineOf u []) = some u ∧ u.inst.active = true ∧ u.inst.direction ≠ .write ∧
      u.app.onEnd = .returns := by decide
theorem witness_IdleStopDoesNothing : current? (machineOf idle []) = some idle ∧ idle.inst.active = false := by decide

theorem witness_EveryEventCompletes :
    (machineOf (full .triggerFlush) []).Inv ∧ current? (machineOf (full .triggerFlush) []) = some (full .triggerFlush) ∧
      (full .triggerFlush).app.cooperative := by decide
theorem witness_BufferAccessesAreInBounds : (machineOf (full .triggerFlush) []).Inv := by decide
/-- The three ways to break the duties, at each of the six call sites: `begin`, `write`, the `end` with nothing to flush, then the
`read` of a flush, the `read` of a stop, the `end` after it. -/
theorem witness_UndutifulCallbacksStopTheRun :
    (∀ e ∈ [CallEnd.neverReturns, .reenters, .oversteps],
      let u := withApp opened ⟨e, e, e, e, []⟩
      current? (machineOf u []) = some u ∧ u.inst.active = true ∧ u.inst.index = 0 ∧ u.inst.direction ≠ .write ∧
        u.app.onBegin = e ∧ u.app.onWrite = e ∧ u.app.onEnd = e) ∧
    (∀ e ∈ [CallEnd.neverReturns, .reenters, .oversteps], ∀ w ∈ [full .triggerFlush, tiny .triggerFlush],
      let u := withApp w ⟨e, e, e, e, []⟩
      current? (machineOf u []) = some u ∧ u.inst.active = true ∧ u.inst.buf.wf u.inst.cfg.cap ∧
        u.inst.index = u.inst.cfg.cap ∧ u.inst.cfg.policy = .triggerFlush ∧ u.inst.direction = .write ∧ u.app.onRead = e) ∧
    (∀ e ∈ [CallEnd.neverReturns, .reenters, .oversteps], ∀ w ∈ [tiny .ignore, writing],
      let u := withApp w ⟨.returns, .returns, .returns, e, []⟩
      current? (machineOf u []) = some u ∧ u.inst.active = true ∧ u.inst.direction = .write ∧
        u.inst.buf.wf u.inst.cfg.cap ∧ u.inst.index ≤ u.inst.cfg.cap ∧ u.app.onRead = .returns ∧ u.app.onEnd = e) := by
  refine ⟨?_, ?_, ?_⟩ <;> decide
/-- A stop-time `end` that never returns, in an entry that holds the clock: the `read` before it is done, the clock still held. -/
theorem witness_StuckCallbackHoldsClock :
    ∃ v, step (machineOf writing [.entry 0 true
        { presentEvent .stop 0 [] with app := ⟨.returns, .returns, .returns, .neverReturns, []⟩ } none]) =
      .fault (.stuckInCallback .endTx v) ∧ v.trace = [.readCall [1, 2] 2] ∧ v.adapter.sclHold = true := ⟨_, rfl, rfl, rfl⟩

/-- Every event, on one state, answers a next state of the same instance: the hypotheses of the frames and of the rules of
the whole engine. -/
theorem witness_every_event :
    (∃ t v, exec .col (machineOf writing []) = .next t ∧ current? t = some v) ∧
    (∃ t v, exec (.am 0x2A) (machineOf writing []) = .next t ∧ current? t = some v) ∧
    (∃ t v, exec .dw (machineOf writing []) = .next t ∧ current? t = some v) ∧
    (∃ t v, exec (.dweOv true) (machineOf writing []) = .next t ∧ current? t = some v) ∧
    (∃ t v, exec .dweWcol (machineOf writing []) = .next t ∧ current? t = some v) ∧
    (∃ t v, exec (.dr false true) (machineOf writing []) = .next t ∧ current? t = some v) ∧
    (∃ t v, exec .stop (machineOf writing []) = .next t ∧ current? t = some v) :=
  ⟨⟨_, _, rfl, rfl⟩, ⟨_, _, rfl, rfl⟩, ⟨_, _, rfl, rfl⟩, ⟨_, _, rfl, rfl⟩, ⟨_, _, rfl, rfl⟩, ⟨_, _, rfl, rfl⟩, ⟨_, _, rfl, rfl⟩⟩

theorem witness_EventTouchesOneInstance : ∃ t, exec .dw (machineOf writing []) = .next t := ⟨_, rfl⟩
theorem witness_NonStoringEventsFrame :
    ∃ t v, current? (machineOf writing []) = some writing ∧ exec .stop (machineOf writing []) = .next t ∧
      current? t = some v := ⟨_, _, rfl, rfl, rfl⟩
/-- A byte that is appended, one that is flushed before, one that is dropped. -/
theorem witness_ReceiveFrame :
    (∃ t v, exec .dw (machineOf writing []) = .next t ∧ current? t = some v ∧ receiveCell writing.inst = some 2) ∧
    (∃ t v, exec .dw (machineOf (full .triggerFlush) []) = .next t ∧ current? t = some v ∧
      receiveCell (full .triggerFlush).inst = some 0) ∧
    (∃ t v, exec .dw (machineOf (full .ignore) []) = .next t ∧ current? t = some v ∧
      receiveCell (full .ignore).inst = none) :=
  ⟨⟨_, _, rfl, rfl, rfl⟩, ⟨_, _, rfl, rfl, rfl⟩, ⟨_, _, rfl, rfl, rfl⟩⟩
/-- With a `write()` and without one. -/
theorem witness_TransmitFrame :
    (∃ t v, current? (machineOf opened []) = some opened ∧ exec (.dr true false) (machineOf opened []) = .next t ∧
      current? t = some v ∧ opened.app.fill.length = 1) ∧
    (∃ t v, current? (machineOf reading []) = some reading ∧ exec (.dr true false) (machineOf reading []) = .next t ∧
      current? t = some v ∧ reading.inst.index ≠ 0) :=
  ⟨⟨_, _, rfl, rfl, rfl, rfl⟩, ⟨_, _, rfl, rfl, rfl, by decide⟩⟩
theorem witness_ConditionBitsFrame :
    ∃ t v, current? (machineOf writing []) = some writing ∧ exec (.dweOv false) (machineOf writing []) = .next t ∧
      current? t = some v ∧ writing.adapter.writeCollision = true := ⟨_, _, rfl, rfl, rfl, rfl⟩
theorem witness_ClockReleasedExactlyOnce :
    ∃ t v, current? (machineOf writing []) = some writing ∧ exec .col (machineOf writing []) = .next t ∧
      current? t = some v := ⟨_, _, rfl, rfl, rfl⟩
theorem witness_ActionsPerEventAreBounded :
    ∃ t v, current? (machineOf writing []) = some writing ∧ exec .stop (machineOf writing []) = .next t ∧
      current? t = some v ∧ v.trace.countP Action.isCallback = 2 := ⟨_, _, rfl, rfl, rfl, rfl⟩
theorem witness_PhaseTransitions :
    ∃ t v, current? (machineOf idle []) = some idle ∧ exec (.am 0x2A) (machineOf idle []) = .next t ∧
      current? t = some v := ⟨_, _, rfl, rfl, rfl⟩
theorem witness_CallbacksFollowTable :
    ∃ t v, current? (machineOf (full .triggerFlush) []) = some (full .triggerFlush) ∧
      exec .dw (machineOf (full .triggerFlush) []) = .next t ∧ current? t = some v := ⟨_, _, rfl, rfl, rfl⟩
theorem witness_CallbacksSeeConsistentState :
    ∃ t v, (machineOf (full .triggerFlush) []).Inv ∧
      current? (machineOf (full .triggerFlush) []) = some (full .triggerFlush) ∧
      exec .dw (machineOf (full .triggerFlush) []) = .next t ∧ current? t = some v ∧ v.calls.length = 1 :=
  ⟨_, _, by decide, rfl, rfl, rfl, rfl⟩
theorem witness_IdleInstanceIgnoresAllButAm :
    current? (machineOf idle []) = some idle ∧ idle.inst.active = false ∧ isAm .stop = false := by decide
theorem witness_AddressIsNeverRead :
    ∃ t v, current? (machineOf writing []) = some writing ∧ exec (.am 0x2A) (machineOf writing []) = .next t ∧
      current? t = some v := ⟨_, _, rfl, rfl, rfl⟩
/-- A `STOP`, and a `COL` that cuts a transaction short. -/
theorem witness_BeginEndBalance :
    (∃ t v, exec .stop (machineOf writing []) = .next t ∧ current? t = some v) ∧
    (∃ t v, exec .col (machineOf writing []) = .next t ∧ current? t = some v ∧ writing.inst.active = true) :=
  ⟨⟨_, _, rfl, rfl⟩, ⟨_, _, rfl, rfl, rfl⟩⟩

theorem witness_StepKeepsInvariant :
    (machineOf writing [entryOf 0 .dw 9 []]).Inv ∧ ∃ t, step (machineOf writing [entryOf 0 .dw 9 []]) = .next t :=
  ⟨by decide, _, rfl⟩
theorem witness_StepKeepsBeginEndPairing :
    (∀ u ∈ (machineOf idle [entryOf 0 (.am 0x2A) 0 []]).slaves, u.Paired) ∧
      ∃ t, step (machineOf idle [entryOf 0 (.am 0x2A) 0 []]) = .next t := ⟨by decide, _, rfl⟩

/-- A Collision with a coincident byte, then a byte, a stop and another instance's transaction. -/
def afterCollision : State :=
  machineOf writing [collisionWith 0 .dw 9 [], entryOf 0 .stop 0 [], entryOf 1 (.am 0x2A) 0 []]

theorem witness_CollisionSilencesTransaction :
    ∃ t v, afterCollision.pending =
        .entry 0 true (presentEvent .col 9 []) (some (presentEvent .dw 9 [])) ::
          [entryOf 0 .stop 0 [], entryOf 1 (.am 0x2A) 0 []] ∧
      decode (presentEvent .col 9 []).word = .ok .col ∧ (∀ x ∈ afterCollision.pending, opensAt 0 x = false) ∧
      afterCollision.slaves[0]? = some writing ∧ core.run (3 + 1) afterCollision = .next t ∧ t.slaves[0]? = some v :=
  ⟨_, _, rfl, rfl, by decide, rfl, rfl, rfl⟩
/-- From `index = 0`, and from `index = 1`. -/
theorem witness_WriteCalledAtMostOnce :
    (∃ t v, (machineOf opened (List.replicate 2 (entryOf 0 (.dr false false) 0 []))).Inv ∧ opened.inst.active = true ∧
      (∀ x ∈ List.replicate 2 (entryOf 0 (.dr false false) 0 []), onlyDataAt 0 x = true) ∧
      core.run 2 (machineOf opened (List.replicate 2 (entryOf 0 (.dr false false) 0 []))) = .next t ∧
      t.slaves[0]? = some v) ∧
    (∃ t v, (machineOf reading [entryOf 0 (.dr false false) 0 []]).Inv ∧ reading.inst.active = true ∧
      1 ≤ reading.inst.index ∧ (∀ x ∈ [entryOf 0 (.dr false false) 0 []], onlyDataAt 0 x = true) ∧
      core.run 1 (machineOf reading [entryOf 0 (.dr false false) 0 []]) = .next t ∧ t.slaves[0]? = some v) :=
  ⟨⟨_, _, by decide, rfl, by decide, rfl, rfl⟩, ⟨_, _, by decide, rfl, by decide, by decide, rfl, rfl⟩⟩
/-- A transaction of one good byte and one flagged byte. -/
def oneTransaction : List Instr := [.am 0x2A, .dw, .dweOv false, .stop]
theorem witness_BeginAndEndOncePerTransaction :
    ∃ entries : List (Bool × Presented),
      (machineOf idle (entries.map (fun x => .entry 0 x.1 x.2 none) ++ [])).Inv ∧
      (machineOf idle (entries.map (fun x => .entry 0 x.1 x.2 none) ++ [])).slaves[0]? = some idle ∧
      wellFormedSequence oneTransaction = true ∧
      entries.map (fun x => decode x.2.word) = oneTransaction.map Except.ok ∧ (∀ x ∈ entries, x.2.app.cooperative) :=
  ⟨oneTransaction.map fun i => (true, presentEvent i 9 []), by decide, rfl, by decide, rfl, by decide⟩
/-- One byte, and more bytes than the buffer holds, in a buffer of one cell and in one of three. -/
theorem witness_WriteTransactionReads :
    ∀ u ∈ [idle, tiny .overwrite, full .ignore], ∀ bs ∈ [[1], [1, 2, 3, 4, 5]],
      (machineOf u (wtx 0 0x2A bs ++ [])).Inv ∧ (machineOf u (wtx 0 0x2A bs ++ [])).slaves[0]? = some u ∧ bs ≠ [] ∧
      (machineOf u (wtx 0 0x2A bs ++ [])).pending = wtx 0 0x2A bs ++ [] := by decide
theorem witness_TriggerFlushDeliversEveryByte :
    ∀ bs ∈ [[], [1, 2, 3, 4]], (machineOf idle (wtx 0 0x2A bs ++ [])).Inv ∧
      (machineOf idle (wtx 0 0x2A bs ++ [])).slaves[0]? = some idle ∧ idle.inst.cfg.policy = .triggerFlush ∧
      (machineOf idle (wtx 0 0x2A bs ++ [])).pending = wtx 0 0x2A bs ++ [] := by decide
theorem witness_ReadTransactionBytes :
    ∀ n ∈ [0, 1, 5], (machineOf writing (rtx 0 0x2A n [8, 9] ++ [])).Inv ∧
      (machineOf writing (rtx 0 0x2A n [8, 9] ++ [])).slaves[0]? = some writing ∧
      (machineOf writing (rtx 0 0x2A n [8, 9] ++ [])).pending = rtx 0 0x2A n [8, 9] ++ [] := by decide
/-- Nothing written, and a full buffer, before no byte read and before two. -/
theorem witness_RepeatedStartKeepsBytesInBuffer :
    ∀ bs ∈ [[], [1, 2, 3]], ∀ m ∈ [0, 2],
      (machineOf idle (wrtx 0 0x2A bs m [8] ++ [])).Inv ∧
      (machineOf idle (wrtx 0 0x2A bs m [8] ++ [])).slaves[0]? = some idle ∧ bs.length ≤ idle.inst.cfg.cap ∧
      (machineOf idle (wrtx 0 0x2A bs m [8] ++ [])).pending = wrtx 0 0x2A bs m [8] ++ [] := by decide
theorem witness_InstancesAreIndependent :
    ∃ t, core.run 2 (machineOf writing [entryOf 0 .stop 0 [], entryOf 1 (.am 0x2A) 0 []]) = .next t ∧
      (0 : Nat) ≠ 1 := ⟨_, rfl, by decide⟩
/-- Each condition met once: X1; X2 and X3; X4 under each policy; X5. -/
theorem witness_ConditionCauses :
    ∀ x ∈ [(Instr.col, writing), (.dweOv true, full .triggerFlush), (.dweWcol, writing), (.dw, full .triggerFlush),
        (.dw, tiny .ignore), (.dw, full .overwrite), (.dr true false, full .ignore)],
      (machineOf x.2 []).Inv ∧ current? (machineOf x.2 []) = some x.2 ∧ (after x.1 x.2).isSome = true ∧
        conditionsMet x.1 x.2.inst ≠ [] := by
  have h : ∀ x ∈ [(Instr.col, writing), (.dweOv true, full .triggerFlush), (.dweWcol, writing), (.dw, full .triggerFlush),
      (.dw, tiny .ignore), (.dw, full .overwrite), (.dr true false, full .ignore)],
      (machineOf x.2 []).Inv ∧ conditionsMet x.1 x.2.inst ≠ [] := by decide
  intro x hx
  refine ⟨(h x hx).1, rfl, ?_, (h x hx).2⟩
  simp only [List.mem_cons, List.not_mem_nil, or_false] at hx
  rcases hx with rfl | rfl | rfl | rfl | rfl | rfl | rfl <;> rfl
/-- A `DW` of an open transaction that meets no condition, and an idle one. -/
theorem witness_ConditionCauses_none :
    (∃ t v, (machineOf writing []).Inv ∧ exec .dw (machineOf writing []) = .next t ∧ current? t = some v ∧
      conditionsMet .dw writing.inst = []) ∧
    (∃ t v, (machineOf idle []).Inv ∧ exec .dw (machineOf idle []) = .next t ∧ current? t = some v ∧
      conditionsMet .dw idle.inst = []) :=
  ⟨⟨_, _, by decide, rfl, rfl, rfl⟩, ⟨_, _, by decide, rfl, rfl, rfl⟩⟩
/-- At `index = CAP` and below it. -/
theorem witness_IndexFitsItsRegister :
    (full .ignore).inst.Inv ∧ writing.inst.Inv ∧ writing.inst.index < writing.inst.cfg.cap := by decide
theorem witness_ConfigurationCheck :
    configure 1 8 0b10 0xFF = .ok ⟨1, 8, .overwrite, 0xFF⟩ ∧ configure 1 119 0b00 0 = .ok ⟨1, 119, .triggerFlush, 0⟩ :=
  ⟨rfl, rfl⟩

end Sys2Proof.Tests
end

section
/-! The configuration check (R5, R6, R24, U1, U8): which policy codes name a policy, and which configurations `configure` answers. -/

namespace Sys2Proof.Machine

@[simp] theorem policyOfCode_policyCode (p : Policy) : policyOfCode (policyCode p) = some p := by
  cases p <;> rfl

/-- A code is decoded to the one policy it encodes (R24). -/
theorem policyOfCode_eq_some_iff {code : BitVec 2} {p : Policy} : policyOfCode code = some p ↔ policyCode p = code := by
  constructor
  · unfold policyOfCode
    split_ifs with hflush hignore hoverwrite <;> rintro ⟨⟩
    · exact hflush.symm
    · exact hignore.symm
    · exact hoverwrite.symm
  · rintro rfl
    exact policyOfCode_policyCode p

/-- `0b11` is the one reserved policy code (U8). -/
theorem exists_policyCode_eq_iff (code : BitVec 2) : (∃ p, policyCode p = code) ↔ code ≠ 0b11 := by
  constructor
  · rintro ⟨p, rfl⟩
    cases p <;> decide
  · intro hcode
    have hcases : ∀ c : BitVec 2, c ≠ 0b11 → c = 0b00 ∨ c = 0b01 ∨ c = 0b10 := by decide
    obtain rfl | rfl | rfl := hcases code hcode
    · exact ⟨.triggerFlush, rfl⟩
    · exact ⟨.ignore, rfl⟩
    · exact ⟨.overwrite, rfl⟩

theorem legal_iff (c : InstConfig) :
    c.legal = true ↔ 1 ≤ c.cap ∧ 8 ≤ c.address.toNat ∧ c.address.toNat ≤ 119 := by
  simp [InstConfig.legal, InstConfig.capLegal, InstConfig.addressLegal]

/-- Once the code names a policy, the two checks of `configure` are together the legality of the configuration. -/
theorem configure_of_policyCode (cap : Nat) (addr : SlaveAddr) (p : Policy) (filler : Byte) (c : InstConfig) :
    configure cap addr (policyCode p) filler = .ok c ↔ c.legal = true ∧ ⟨cap, addr, p, filler⟩ = c := by
  simp only [configure, policyOfCode_policyCode]
  split_ifs with hcap haddr
  · have hlegal : InstConfig.legal ⟨cap, addr, p, filler⟩ = true := by simp [InstConfig.legal, hcap, haddr]
    simp only [Except.ok.injEq, iff_and_self]
    rintro rfl
    exact hlegal
  · simp only [false_iff]
    rintro ⟨hlegal, rfl⟩
    simp [InstConfig.legal, haddr] at hlegal
  · simp only [false_iff]
    rintro ⟨hlegal, rfl⟩
    simp [InstConfig.legal, hcap] at hlegal

/-- `configure` answers `c` exactly when `c` is legal and holds the four parameters it was given. -/
theorem configure_eq_ok_iff {cap : Nat} {addr : SlaveAddr} {code : BitVec 2} {filler : Byte} {c : InstConfig} :
    configure cap addr code filler = .ok c ↔
      c.legal = true ∧ c.cap = cap ∧ c.address = addr ∧ policyCode c.policy = code ∧ c.txFiller = filler := by
  constructor
  · intro hok
    cases hp : policyOfCode code with
    | none => simp [configure, hp] at hok
    | some p =>
      obtain rfl := policyOfCode_eq_some_iff.mp hp
      obtain ⟨hlegal, rfl⟩ := (configure_of_policyCode ..).mp hok
      exact ⟨hlegal, rfl, rfl, rfl, rfl⟩
  · rintro ⟨hlegal, rfl, rfl, rfl, rfl⟩
    exact (configure_of_policyCode ..).mpr ⟨hlegal, rfl⟩

/-- Settles O58: both halves are read off `configure_eq_ok_iff`, with legality and the reserved code spelled out. -/
theorem configurationCheck : Obligations.ConfigurationCheck := by
  intro cap addr code filler
  refine ⟨⟨?accepted, ?accepts⟩, fun c => configure_eq_ok_iff.mp⟩
  case accepted =>
    rintro ⟨c, hok⟩
    obtain ⟨hlegal, rfl, rfl, hcode, -⟩ := configure_eq_ok_iff.mp hok
    obtain ⟨hcap, hlow, hhigh⟩ := (legal_iff c).mp hlegal
    exact ⟨hcap, hlow, hhigh, (exists_policyCode_eq_iff code).mp ⟨c.policy, hcode⟩⟩
  case accepts =>
    rintro ⟨hcap, hlow, hhigh, hcode⟩
    obtain ⟨p, hp⟩ := (exists_policyCode_eq_iff code).mpr hcode
    have hlegal : InstConfig.legal ⟨cap, addr, p, filler⟩ = true := (legal_iff _).mpr ⟨hcap, hlow, hhigh⟩
    exact ⟨_, configure_eq_ok_iff.mpr ⟨hlegal, rfl, rfl, hp, rfl⟩⟩

end Sys2Proof.Machine
end

section
/-!
The values after reset (R35) and the invariant at reset (R33): what `slavesAfterReset` lists, and that
an instance reset with a legal configuration meets the invariant.
-/

namespace Sys2Proof.Machine

@[simp] theorem length_slavesAfterReset (n k : Nat) : (slavesAfterReset n k).length = n := by
  induction n generalizing k with
  | zero => rfl
  | succ n ih => simp [slavesAfterReset, ih]

/-- The instances after reset are numbered without a gap (R190). -/
theorem getElem?_slavesAfterReset {n k j : Nat} {u : Slave} (h : (slavesAfterReset n k)[j]? = some u) :
    u = Slave.afterReset (k + j) := by
  induction n generalizing k j with
  | zero => simp [slavesAfterReset] at h
  | succ n ih =>
    cases j with
    | zero => simpa [slavesAfterReset] using h.symm
    | succ j =>
      have htail : (slavesAfterReset n (k + 1))[j]? = some u := by simpa [slavesAfterReset] using h
      rw [ih htail]
      congr 1
      omega

theorem getElem?_reset_slaves {k : Nat} {u : Slave} (h : State.reset.slaves[k]? = some u) : u = Slave.afterReset k := by
  simpa using getElem?_slavesAfterReset h

/-- Every value of the open parameters is a configuration of this hardware (R5, R6). -/
theorem legal_instConfig (k : Nat) : (Config.instConfig k).legal = true := by
  have hoffset : (Config.addressOffset k).val < 112 := (Config.addressOffset k).isLt
  have haddress : (Config.instConfig k).address.toNat = 8 + (Config.addressOffset k).val := by
    simp only [Config.instConfig, BitVec.toNat_ofNat]
    omega
  refine (legal_iff _).mpr ⟨?cap, ?low, ?high⟩
  case cap => exact Nat.le_add_left 1 _
  case low => omega
  case high => omega

theorem Instance.inv_afterReset (k n : Nat) {cfg : InstConfig} (hlegal : cfg.legal = true) :
    (Instance.afterReset k n cfg).Inv :=
  ⟨hlegal, Memory.wf_afterReset k n cfg.cap, Nat.zero_le _, nofun, nofun⟩

theorem step_reset : step State.reset = .next State.reset := rfl

/-- Settles O11: each instance of the state after reset is `Slave.afterReset` of its number. -/
theorem resetValues : Obligations.ResetValues := by
  refine ⟨length_slavesAfterReset _ _, step_reset, fun k u hu => ?_⟩
  obtain rfl := getElem?_reset_slaves hu
  exact ⟨rfl, rfl, rfl, rfl, Memory.wf_afterReset .., rfl⟩

/-- Settles O12: `N_INST` is a successor, and each instance is reset with a legal configuration. -/
theorem resetMeetsInvariant : Obligations.ResetMeetsInvariant := by
  constructor
  · exact List.ne_nil_of_length_eq_add_one (length_slavesAfterReset Config.nInst 0)
  · intro u hu
    obtain ⟨k, hk⟩ := List.mem_iff_getElem?.mp hu
    obtain rfl := getElem?_reset_slaves hk
    exact Instance.inv_afterReset k 0 (legal_instConfig k)

end Sys2Proof.Machine
end

section
/-! The register layout (R29): the fields of `CFG` and `STAT`. -/

namespace Sys2Proof.Machine

theorem cfgWord_address (i : Instance) : (cfgWord i).extractLsb' 0 7 = i.cfg.address :=
  BitVec.extractLsb'_append_eq_right

theorem cfgWord_policy (i : Instance) : (cfgWord i).extractLsb' 7 2 = policyCode i.cfg.policy :=
  BitVec.extractLsb'_append_eq_left

theorem statWord_active (i : Instance) : (statWord i).getLsbD 0 = i.active := by
  rw [statWord, BitVec.getLsbD_append]
  simp

theorem statWord_direction (i : Instance) : (statWord i).extractLsb' 1 2 = directionCode i.direction :=
  BitVec.extractLsb'_append_eq_left

/-- Settles O57: each word is the concatenation of its fields, and a policy is read back from its code. -/
theorem registerLayout : Obligations.RegisterLayout := fun i =>
  ⟨cfgWord_address i, cfgWord_policy i, statWord_active i, statWord_direction i, policyOfCode_policyCode _⟩

end Sys2Proof.Machine
end

section
/-!
The invariant of R33 is kept by every step: what each kind of register change requires to keep it, then each
event, then each step.
-/

namespace Sys2Proof.Machine

/-! ### What the invariant says of one instance -/

theorem Instance.Inv.legal {i : Instance} : i.Inv → i.cfg.legal = true
  | ⟨hlegal, _⟩ => hlegal

theorem Instance.Inv.cap_pos {i : Instance} (h : i.Inv) : 1 ≤ i.cfg.cap := ((legal_iff i.cfg).mp h.legal).1

theorem Instance.Inv.wf_buf {i : Instance} : i.Inv → i.buf.wf i.cfg.cap = true
  | ⟨_, hwf, _⟩ => hwf

/-- I1 of R33. -/
theorem Instance.Inv.index_le {i : Instance} : i.Inv → i.index ≤ i.cfg.cap
  | ⟨_, _, hle, _⟩ => hle

/-- I4 of R33: a pending flush has a length of 1 to `CAP`. -/
theorem Instance.Inv.pendingFlush {i : Instance} (h : i.Inv) (ha : i.active = true) (hd : i.direction = .write) :
    1 ≤ i.index ∧ i.index ≤ i.cfg.cap := by
  obtain ⟨-, -, hle, -, hmoved⟩ := h
  exact ⟨hmoved ha (by simp [hd]), hle⟩

/-! ### The register changes that keep it -/

/-- The transaction is closed or abandoned (R100, R135). -/
theorem Instance.Inv.idle {i : Instance} (h : i.Inv) : Instance.Inv { i with active := false } :=
  ⟨h.legal, h.wf_buf, h.index_le, nofun, nofun⟩

/-- A transaction is opened (R105). -/
theorem Instance.Inv.opened {i : Instance} (h : i.Inv) :
    Instance.Inv { i with index := 0, direction := .none, active := true } :=
  ⟨h.legal, h.wf_buf, Nat.zero_le _, fun _ _ => rfl, fun _ hd => absurd rfl hd⟩

/-- A byte has moved in direction `d` (R111, R125): the cursor stands past at least one cell. -/
theorem Instance.Inv.moved {i : Instance} (h : i.Inv) {d : Direction} {m : Memory} {n : Nat} (hd : d ≠ .none)
    (hm : m.wf i.cfg.cap = true) (hpos : 1 ≤ n) (hle : n ≤ i.cfg.cap) :
    Instance.Inv { i with direction := d, buf := m, index := n } :=
  ⟨h.legal, hm, hle, fun _ hnone => absurd hnone hd, fun _ _ => hpos⟩

/-! ### One event -/

/-- I5 of R33 (R7): no path of an event writes the configuration, so the register lemmas of each operation close every case. -/
theorem EventEffect.cfg_eq {k : Nat} {u v : Slave} {i : Instr} (h : EventEffect k u i v) : v.inst.cfg = u.inst.cfg := by
  cases h <;> simp

theorem EventEffect.keeps_inv {k : Nat} {u v : Slave} {i : Instr} (h : EventEffect k u i v) (hu : u.inst.Inv) :
    v.inst.Inv := by
  have hcap := hu.cap_pos
  have hwf := hu.wf_buf
  have hle := hu.index_le
  cases h with
  | collision => exact hu.idle
  | addressMatch addr hb => exact hu.opened
  | discardOv wcol => simpa using hu
  | discardWcol => exact hu
  | idleReceive ha => exact hu
  | append ha hi hs =>
    exact hu.moved nofun (Memory.wf_write hwf ..) (Nat.le_add_left ..) (Nat.lt_of_le_of_ne hle hi)
  | flush bytes ha hi hp hs hr hb => exact hu.moved nofun (Memory.wf_write hwf ..) le_rfl hcap
  | ignore ha hi hp => exact hu.moved nofun hwf (hi ▸ hcap) hle
  | overwrite ha hi hp hs => exact hu.moved nofun (Memory.wf_write hwf ..) le_rfl hcap
  | idleTransmit ov wcol ha => exact hu
  | firstByte ov wcol b ha hi hw hc hb => exact hu.moved nofun (Memory.wf_fill hwf _) le_rfl hcap
  | laterByte ov wcol b ha hi hc hb => exact hu.moved nofun hwf (Nat.le_add_left ..) hc
  | filler ov wcol ha hi hc => exact hu.moved nofun hwf (by omega) hle
  | fillerNoCell ov wcol ha hi hw hc => omega
  | idleStop ha => exact hu
  | stopFlush bytes ha hd hr he hb => exact hu.idle
  | stopPlain ha hd he => exact hu.idle

/-! ### One step -/

/-- What one input does to the instance it is for: a reset, or one event after the adapter presented it. -/
inductive SlaveStep (k : Nat) (u : Slave) : Slave → Prop where
  | reset : SlaveStep k u (resetSlave k u)
  | event {stretch : Bool} {e : Presented} {i : Instr} {v : Slave} (h : EventEffect k (acceptEvent stretch e u) i v) :
      SlaveStep k u v

/-- A step leaves the instances as they are, or replaces one by what its input makes of it (R190). -/
theorem step_slaves {s t : State} (h : step s = .next t) :
    t.slaves = s.slaves ∨ ∃ k u v, s.slaves[k]? = some u ∧ SlaveStep k u v ∧ t.slaves = s.slaves.set k v := by
  rcases step_next h with ⟨-, rfl⟩ | ⟨k, rest, u, -, hu, rfl⟩ | ⟨k, stretch, e, co, rest, u, i, -, hu, -, -, hexec⟩
  · exact .inl rfl
  · exact .inr ⟨k, u, _, hu, .reset, rfl⟩
  · obtain ⟨w, v, hw, heffect, rfl⟩ := exec_next hexec
    obtain rfl : acceptEvent stretch e u = w := Option.some.inj ((current?_acceptInto hu).symm.trans hw)
    exact .inr ⟨k, u, v, hu, .event heffect, by simp [acceptInto]⟩

theorem SlaveStep.cfg_eq {k : Nat} {u v : Slave} (h : SlaveStep k u v) : v.inst.cfg = u.inst.cfg := by
  cases h with
  | reset => rfl
  | event he => exact he.cfg_eq

theorem SlaveStep.keeps_inv {k : Nat} {u v : Slave} (h : SlaveStep k u v) (hu : u.inst.Inv) : v.inst.Inv := by
  cases h with
  | reset => exact Instance.inv_afterReset k u.draws hu.legal
  | event he => exact he.keeps_inv hu

/-- What holds of every instance and is kept by each instance's own inputs is kept by every step. -/
theorem step_keeps {P : Slave → Prop} (hP : ∀ {k u v}, SlaveStep k u v → P u → P v) {s t : State}
    (hs : ∀ u ∈ s.slaves, P u) (h : step s = .next t) : ∀ u ∈ t.slaves, P u := by
  intro w hw
  rcases step_slaves h with hsame | ⟨k, u, v, hu, hstep, hset⟩
  · exact hs w (hsame ▸ hw)
  · rcases List.mem_or_eq_of_mem_set (hset ▸ hw) with hold | rfl
    · exact hs w hold
    · exact hP hstep (hs u (List.mem_of_getElem? hu))

/-- I5 of R33 for the whole machine: a step neither adds an instance nor changes a configuration. -/
theorem step_configs {s t : State} (h : step s = .next t) :
    (t.slaves.map fun u => u.inst.cfg) = s.slaves.map fun u => u.inst.cfg := by
  rcases step_slaves h with hsame | ⟨k, u, v, hu, hstep, hset⟩
  · rw [hsame]
  · obtain ⟨hk, rfl⟩ := List.getElem?_eq_some_iff.mp hu
    have hk' : k < (s.slaves.map fun u => u.inst.cfg).length := by simpa using hk
    rw [hset, List.map_set, hstep.cfg_eq, ← List.getElem_map (fun u : Slave => u.inst.cfg) (h := hk'),
      List.set_getElem_self]

theorem step_keeps_inv {s t : State} (hs : s.Inv) (h : step s = .next t) : t.Inv := by
  obtain ⟨hne, hinv⟩ := hs
  refine ⟨fun hnil => hne ?_, step_keeps SlaveStep.keeps_inv hinv h⟩
  simpa [hnil] using step_configs h

theorem directionCode_ne_three (d : Direction) : directionCode d ≠ 0b11 := by
  cases d <;> decide

/-- Settles O45: each input of an instance keeps its invariant and its configuration, and I4 follows from the invariant. -/
theorem stepKeepsInvariant : Obligations.StepKeepsInvariant := by
  intro s t hs h
  have ht : t.Inv := step_keeps_inv hs h
  exact ⟨ht, step_configs h, fun u hu => ⟨directionCode_ne_three _, (ht.2 u hu).pendingFlush⟩⟩

end Sys2Proof.Machine
end

section
/-! The queue (R60, R92): a step takes its first input, and the meaning of the event leaves the rest as it finds it. -/

namespace Sys2Proof.Machine

/-- No event delivers or withdraws an input. -/
theorem exec_pending {i : Instr} {s t : State} (h : exec i s = .next t) : t.pending = s.pending := by
  obtain ⟨u, v, -, -, rfl⟩ := exec_next_iff.mp h
  rfl

theorem step_of_single_entry {s : State} {k : Nat} {stretch : Bool} {e : Presented} {rest : List Input} {u : Slave}
    {i : Instr} (hp : s.pending = .entry k stretch e none :: rest) (hu : s.slaves[k]? = some u)
    (hi : decode e.word = .ok i) : step s = exec i (acceptInto k stretch e u rest s) := by
  simp only [step, fetch, hp, fetchEntry_single hu hi]

/-- Settles O6: an accepted entry of one event leaves the state that the statement writes out. -/
theorem stepHandlesDecodedEvent : Obligations.StepHandlesDecodedEvent := fun _ _ _ _ _ _ _ hp hu hi =>
  step_of_single_entry hp hu hi

/-- Settles O10: by the ways a step goes on; waiting is none of them here, since an input is pending. -/
theorem inputsAreTakenInOrder : Obligations.InputsAreTakenInOrder := by
  intro s t x rest hp h
  rcases step_next h with ⟨hnil, -⟩ | ⟨k, rest', u, hp', -, rfl⟩ | ⟨k, stretch, e, co, rest', u, i, hp', -, -, -, hexec⟩
  · simp [hp] at hnil
  · cases hp.symm.trans hp'
    rfl
  · cases hp.symm.trans hp'
    have hpending : t.pending = afterFirst k co rest := exec_pending hexec
    cases co with
    | none => exact hpending
    | some e' => exact hpending

end Sys2Proof.Machine
end

section
/-!
Buffer accesses are in bounds (R51): what each access requires to find its cell, then each event under the invariant. The
callbacks may end in any way, since a callback that does not return is no access.
-/

namespace Sys2Proof.Machine

/-! ### The accesses -/

theorem andThen_ne_fault {α β : Type} {r : Result α} {f : α → Result β} {e : Fault} (hr : r ≠ .fault e)
    (hf : ∀ a, r = .next a → f a ≠ .fault e) : andThen r f ≠ .fault e := fun h =>
  (andThen_fault_iff.mp h).elim hr fun ⟨a, ha, hfa⟩ => hf a ha hfa

theorem callBack_in_bounds {c : Callback} {how : CallEnd} {a : Action} {u : Slave} {cell : Nat} :
    callBack c how a u ≠ .fault (.bufferBounds cell) := by
  simp [callBack_fault_iff]

theorem callRead_in_bounds {n : Nat} {u : Slave} {cell : Nat} (hw : u.inst.buf.wf u.inst.cfg.cap = true)
    (hn : n ≤ u.inst.cfg.cap) : callRead n u ≠ .fault (.bufferBounds cell) := by
  obtain ⟨bytes, hb, -⟩ := Memory.payload_of_le hw hn
  simpa only [callRead, hb] using callBack_in_bounds

theorem callWrite_in_bounds {u : Slave} {cell : Nat} : callWrite u ≠ .fault (.bufferBounds cell) := by
  simp [callWrite_fault_iff]

theorem appendAndRelease_in_bounds {b : Byte} {u : Slave} {cell : Nat} (hw : u.inst.buf.wf u.inst.cfg.cap = true)
    (hi : u.inst.index < u.inst.cfg.cap) : appendAndRelease b u ≠ .fault (.bufferBounds cell) := by
  obtain ⟨c, hc⟩ := Memory.read?_of_lt hw hi
  simp [appendAndRelease, appendByte, hc]

theorem transmitByte_in_bounds {u : Slave} {cell : Nat} (hw : u.inst.buf.wf u.inst.cfg.cap = true) :
    transmitByte u ≠ .fault (.bufferBounds cell) := by
  unfold transmitByte
  split
  · next hi =>
    obtain ⟨b, hb⟩ := Memory.read?_of_lt hw hi
    simp [hb]
  · nofun

/-! ### The events that access the buffer -/

/-- A flush reads all `CAP` cells, and the byte that follows goes to cell 0 (R115, R117). -/
theorem overflowArbiter_in_bounds {b : Byte} {u : Slave} {cell : Nat} (hw : u.inst.buf.wf u.inst.cfg.cap = true)
    (hcap : 1 ≤ u.inst.cfg.cap) : overflowArbiter b u ≠ .fault (.bufferBounds cell) := by
  unfold overflowArbiter
  split
  · refine andThen_ne_fault (callRead_in_bounds hw le_rfl) fun v hv => ?_
    obtain ⟨bytes, -, -, rfl⟩ := callRead_next_iff.mp hv
    exact appendAndRelease_in_bounds hw hcap
  · nofun
  · exact appendAndRelease_in_bounds hw hcap

theorem doDataWrite_in_bounds (k : Nat) {u : Slave} {cell : Nat} (hu : u.inst.Inv) :
    doDataWrite k u ≠ .fault (.bufferBounds cell) := by
  unfold doDataWrite
  split
  · simp only [doReceive]
    split
    · exact overflowArbiter_in_bounds hu.wf_buf hu.cap_pos
    · next hi => exact appendAndRelease_in_bounds hu.wf_buf (Nat.lt_of_le_of_ne hu.index_le hi)
  · nofun

/-- `write()` keeps the canonical form (R154), so the transmit step finds its cell in the content it leaves. -/
theorem doDataRead_in_bounds (ov wcol : Bool) (k : Nat) {u : Slave} {cell : Nat} (hu : u.inst.Inv) :
    doDataRead ov wcol k u ≠ .fault (.bufferBounds cell) := by
  unfold doDataRead
  split
  · simp only [doTransmit]
    split
    · refine andThen_ne_fault callWrite_in_bounds fun w hwrite => ?_
      obtain ⟨-, rfl⟩ := callWrite_next_iff.mp hwrite
      exact andThen_ne_fault (transmitByte_in_bounds (Memory.wf_fill hu.wf_buf _)) fun _ _ => nofun
    · rw [andThen_next]
      exact andThen_ne_fault (transmitByte_in_bounds hu.wf_buf) fun _ _ => nofun
  · nofun

/-- The stop-time `read` has the length `index`, at most `CAP` (R136). -/
theorem doStopEvent_in_bounds (k : Nat) {u : Slave} {cell : Nat} (hu : u.inst.Inv) :
    doStopEvent k u ≠ .fault (.bufferBounds cell) := by
  unfold doStopEvent
  split
  · refine andThen_ne_fault ?_ fun _ _ => andThen_ne_fault callBack_in_bounds fun _ _ => nofun
    split
    · exact callRead_in_bounds hu.wf_buf hu.index_le
    · nofun
  · nofun

theorem doEvent_in_bounds {i : Instr} {k : Nat} {u : Slave} {cell : Nat} (hu : u.inst.Inv) :
    doEvent i k u ≠ .fault (.bufferBounds cell) := by
  cases i with
  | col => nofun
  | am addr => exact andThen_ne_fault callBack_in_bounds fun _ _ => nofun
  | dw => exact doDataWrite_in_bounds k hu
  | dweOv wcol => nofun
  | dweWcol => nofun
  | dr ov wcol => exact doDataRead_in_bounds ov wcol k hu
  | stop => exact doStopEvent_in_bounds k hu

/-- Settles O30: the instance whose event is handled meets the invariant, which puts every access inside its buffer. -/
theorem bufferAccessesAreInBounds : Obligations.BufferAccessesAreInBounds := by
  intro s i cell ⟨_, hinv⟩ h
  rw [exec_eq_onCurrent] at h
  obtain ⟨u, hu, hfault⟩ := onCurrent_fault_iff.mp h
  exact doEvent_in_bounds (hinv u (current?_mem hu)) hfault

end Sys2Proof.Machine
end

section
/-! The event word (R71 to R75): its fields, the decoder read kind by kind, and the encoder as its inverse. -/

namespace Sys2Proof

/-! ### A word is the concatenation of its fields (R72), and what those of an `AM` word are -/

theorem ofBool_getLsbD {n : Nat} (x : BitVec n) (j : Nat) : BitVec.ofBool (x.getLsbD j) = x.extractLsb' j 1 := by
  ext i hi
  obtain rfl : i = 0 := by omega
  simp

theorem kind_append_payload (w : EventWord) : kindField w ++ payloadField w = w :=
  BitVec.extractLsb'_append_extractLsb' (w := 2) (len := 8)

theorem kind_append_reserved_append_addr (w : EventWord) :
    kindField w ++ BitVec.ofBool (addrReservedBit w) ++ addrField w = w := by
  have hhigh : kindField w ++ BitVec.ofBool (addrReservedBit w) = w.extractLsb' 7 3 := by
    rw [addrReservedBit, ofBool_getLsbD]
    exact BitVec.extractLsb'_append_extractLsb'_eq_extractLsb' rfl
  rw [hhigh]
  exact BitVec.extractLsb'_append_extractLsb' (w := 3) (len := 7)

theorem kind_append_reserved_append_flags (w : EventWord) :
    kindField w ++ dataReservedField w ++ BitVec.ofBool (wcolField w) ++ BitVec.ofBool (ovField w) ++
      BitVec.ofBool (dirField w) = w := by
  have h3 : kindField w ++ dataReservedField w = w.extractLsb' 3 7 :=
    BitVec.extractLsb'_append_extractLsb'_eq_extractLsb' rfl
  have h2 : w.extractLsb' 3 7 ++ w.extractLsb' 2 1 = w.extractLsb' 2 8 :=
    BitVec.extractLsb'_append_extractLsb'_eq_extractLsb' rfl
  have h1 : w.extractLsb' 2 8 ++ w.extractLsb' 1 1 = w.extractLsb' 1 9 :=
    BitVec.extractLsb'_append_extractLsb'_eq_extractLsb' rfl
  rw [wcolField, ovField, dirField, ofBool_getLsbD, ofBool_getLsbD, ofBool_getLsbD, h3, h2, h1]
  exact BitVec.extractLsb'_append_extractLsb' (w := 9) (len := 1)

@[simp] theorem kindField_encode_am (a : SlaveAddr) : kindField (encode (.am a)) = 0b01 :=
  BitVec.extractLsb'_append_eq_of_le (xhi := 0b01#2 ++ 0b0#1) (xlo := a) (by decide)

@[simp] theorem addrReservedBit_encode_am (a : SlaveAddr) : addrReservedBit (encode (.am a)) = false := by
  rw [encode, addrReservedBit, BitVec.getLsbD_append]
  rfl

@[simp] theorem addrField_encode_am (a : SlaveAddr) : addrField (encode (.am a)) = a :=
  BitVec.extractLsb'_append_eq_right

/-! ### The decoder, kind by kind (R75) -/

/-- The decoder has an arm for every kind. -/
theorem kindField_cases (w : EventWord) :
    kindField w = 0b00 ∨ kindField w = 0b01 ∨ kindField w = 0b10 ∨ kindField w = 0b11 := by
  have h : ∀ k : BitVec 2, k = 0b00 ∨ k = 0b01 ∨ k = 0b10 ∨ k = 0b11 := by decide
  exact h _

theorem decode_of_kind_00 {w : EventWord} (h : kindField w = 0b00) :
    decode w = if payloadField w = 0 then .ok .col else .error .collisionPayload := by
  simp [decode, h]

theorem decode_of_kind_01 {w : EventWord} (h : kindField w = 0b01) :
    decode w = if addrReservedBit w then .error .addressBit7 else .ok (.am (addrField w)) := by
  simp [decode, h]

theorem decode_of_kind_10 {w : EventWord} (h : kindField w = 0b10) : decode w = decodeDataByte w := by
  simp [decode, h]

theorem decode_of_kind_11 {w : EventWord} (h : kindField w = 0b11) :
    decode w = if payloadField w = 0 then .ok .stop else .error .stopPayload := by
  simp [decode, h]

@[simp] theorem decode_encode (i : Instr) : decode (encode i) = .ok i := by
  cases i with
  | col => rfl
  | am a =>
    rw [decode_of_kind_01 (kindField_encode_am a), addrReservedBit_encode_am, addrField_encode_am]
    rfl
  | dw => rfl
  | dweOv wcol => cases wcol <;> rfl
  | dweWcol => rfl
  | dr ov wcol => cases ov <;> cases wcol <;> rfl
  | stop => rfl

theorem encode_of_decodeDataByte {w : EventWord} {i : Instr} (hkind : kindField w = 0b10)
    (h : decodeDataByte w = .ok i) : encode i = w := by
  have hw := kind_append_reserved_append_flags w
  unfold decodeDataByte at h
  split_ifs at h with hreserved hdir hov hwcol <;> cases h
  · rwa [hkind, not_not.mp hreserved, hdir] at hw
  · rw [hkind, not_not.mp hreserved, eq_false_of_ne_true hdir, hov] at hw
    generalize wcolField w = wcol at hw ⊢
    rw [← hw]
    cases wcol <;> rfl
  · rwa [hkind, not_not.mp hreserved, eq_false_of_ne_true hdir, eq_false_of_ne_true hov, hwcol] at hw
  · rwa [hkind, not_not.mp hreserved, eq_false_of_ne_true hdir, eq_false_of_ne_true hov,
      eq_false_of_ne_true hwcol] at hw

theorem encode_of_decode {w : EventWord} {i : Instr} (h : decode w = .ok i) : encode i = w := by
  rcases kindField_cases w with hk | hk | hk | hk
  · rw [decode_of_kind_00 hk] at h
    split_ifs at h with hp
    cases h
    rw [← kind_append_payload w, hk, hp]
    rfl
  · rw [decode_of_kind_01 hk] at h
    split_ifs at h with hr
    cases h
    have hw := kind_append_reserved_append_addr w
    rwa [hk, eq_false_of_ne_true hr] at hw
  · exact encode_of_decodeDataByte hk (decode_of_kind_10 hk ▸ h)
  · rw [decode_of_kind_11 hk] at h
    split_ifs at h with hp
    cases h
    rw [← kind_append_payload w, hk, hp]
    rfl

/-- Decoder and encoder are inverse to each other on the legal words. -/
theorem decode_eq_ok_iff {w : EventWord} {i : Instr} : decode w = .ok i ↔ encode i = w :=
  ⟨encode_of_decode, fun h => h ▸ decode_encode i⟩

/-! ### The statements -/

/-- R77, R74: no operand of an event is out of range. -/
theorem Instr.wellFormed_eq_true (i : Instr) : i.wellFormed = true := by cases i <;> rfl

/-- Settles O1: an `AM` word is read field by field, any other event has at most four words. -/
theorem decodeEncodeRoundTrip : Obligations.DecodeEncodeRoundTrip := fun i =>
  ⟨i.wellFormed_eq_true, decode_encode i⟩

/-- Settles O2: a word is the concatenation of the fields from which `decode` built the event. -/
theorem legalWordHasOneMeaning : Obligations.LegalWordHasOneMeaning := fun _ _ => decode_eq_ok_iff.mp

/-- Settles O5: each word is the word of the event it decodes to. -/
theorem specWordsDecode : Obligations.SpecWordsDecode :=
  ⟨decode_encode .col, decode_encode (.am 0x00), decode_encode (.am 0x2A), decode_encode (.am 0x7F), decode_encode .dw,
    decode_encode (.dr false false), decode_encode (.dweOv false), decode_encode (.dr true false), decode_encode .dweWcol,
    decode_encode (.dr false true), decode_encode (.dweOv true), decode_encode (.dr true true), decode_encode .stop⟩

end Sys2Proof
end

section
/-! The reserved words (R76): which they are, how many, and their refusal. -/

namespace Sys2Proof

/-! ### Reserved words by their fields -/

theorem decodeDataByte_eq_error_iff {w : EventWord} {why : DecodeError} :
    decodeDataByte w = .error why ↔ dataReservedField w ≠ 0 ∧ why = .dataBits := by
  unfold decodeDataByte
  split_ifs with hreserved
  · simpa only [Except.error.injEq, ne_eq, hreserved, not_false_eq_true, true_and] using eq_comm
  all_goals simp [not_not.mp hreserved]

/-- The word is reserved for the reason `why`, said of its fields. -/
def ReservedFor (w : EventWord) : DecodeError → Prop
  | .collisionPayload => kindField w = 0b00 ∧ payloadField w ≠ 0
  | .addressBit7 => kindField w = 0b01 ∧ addrReservedBit w = true
  | .dataBits => kindField w = 0b10 ∧ dataReservedField w ≠ 0
  | .stopPayload => kindField w = 0b11 ∧ payloadField w ≠ 0
  | .notAnEventWord => False

theorem reservedFor_of_decode {w : EventWord} {why : DecodeError} (h : decode w = .error why) : ReservedFor w why := by
  rcases kindField_cases w with hk | hk | hk | hk
  · rw [decode_of_kind_00 hk] at h
    split_ifs at h with hp
    cases h
    exact ⟨hk, hp⟩
  · rw [decode_of_kind_01 hk] at h
    split_ifs at h with hr
    cases h
    exact ⟨hk, hr⟩
  · rw [decode_of_kind_10 hk] at h
    obtain ⟨hr, rfl⟩ := decodeDataByte_eq_error_iff.mp h
    exact ⟨hk, hr⟩
  · rw [decode_of_kind_11 hk] at h
    split_ifs at h with hp
    cases h
    exact ⟨hk, hp⟩

theorem decode_of_reservedFor {w : EventWord} {why : DecodeError} (h : ReservedFor w why) : decode w = .error why := by
  cases why with
  | collisionPayload =>
    obtain ⟨hk, hp⟩ := h
    rw [decode_of_kind_00 hk, if_neg hp]
  | addressBit7 =>
    obtain ⟨hk, hr⟩ := h
    rw [decode_of_kind_01 hk, if_pos hr]
  | dataBits =>
    obtain ⟨hk, hr⟩ := h
    rw [decode_of_kind_10 hk, decodeDataByte_eq_error_iff.mpr ⟨hr, rfl⟩]
  | stopPayload =>
    obtain ⟨hk, hp⟩ := h
    rw [decode_of_kind_11 hk, if_neg hp]
  | notAnEventWord => exact h.elim

theorem decode_eq_error_iff {w : EventWord} {why : DecodeError} : decode w = .error why ↔ ReservedFor w why :=
  ⟨reservedFor_of_decode, decode_of_reservedFor⟩

/-! ### Reserved words as numbers -/

theorem kindField_eq_iff (w : EventWord) (k : BitVec 2) : kindField w = k ↔ w.toNat / 256 = k.toNat := by
  have hlt := w.isLt
  simp [← BitVec.toNat_inj, kindField, Nat.shiftRight_eq_div_pow, Nat.mod_eq_of_lt (show w.toNat / 256 < 4 by omega)]

theorem payloadField_eq_zero_iff (w : EventWord) : payloadField w = 0 ↔ w.toNat % 256 = 0 := by
  simp [← BitVec.toNat_inj, payloadField]

theorem dataReservedField_eq_zero_iff (w : EventWord) : dataReservedField w = 0 ↔ w.toNat / 8 % 32 = 0 := by
  simp [← BitVec.toNat_inj, dataReservedField, Nat.shiftRight_eq_div_pow]

theorem addrReservedBit_iff (w : EventWord) : addrReservedBit w = true ↔ w.toNat / 128 % 2 = 1 := by
  simp [addrReservedBit, BitVec.getLsbD, Nat.testBit_eq_decide_div_mod_eq]

/-- The words reserved for one reason are consecutive: from the first number up to, not including, the second. -/
def reservedSpan : DecodeError → Nat × Nat
  | .collisionPayload => (0x001, 0x100)
  | .addressBit7 => (0x180, 0x200)
  | .dataBits => (0x208, 0x300)
  | .stopPayload => (0x301, 0x400)
  | .notAnEventWord => (0, 0)

theorem reservedFor_iff_span (w : EventWord) (why : DecodeError) :
    ReservedFor w why ↔ (reservedSpan why).1 ≤ w.toNat ∧ w.toNat < (reservedSpan why).2 := by
  have hlt := w.isLt
  cases why with
  | collisionPayload =>
    simp only [ReservedFor, kindField_eq_iff, ne_eq, payloadField_eq_zero_iff, reservedSpan, BitVec.reduceToNat]
    omega
  | addressBit7 =>
    simp only [ReservedFor, kindField_eq_iff, addrReservedBit_iff, reservedSpan, BitVec.reduceToNat]
    omega
  | dataBits =>
    simp only [ReservedFor, kindField_eq_iff, ne_eq, dataReservedField_eq_zero_iff, reservedSpan, BitVec.reduceToNat]
    omega
  | stopPayload =>
    simp only [ReservedFor, kindField_eq_iff, ne_eq, payloadField_eq_zero_iff, reservedSpan, BitVec.reduceToNat]
    omega
  | notAnEventWord => simp [ReservedFor, reservedSpan]

/-- How many numbers below `n` lie in a span. -/
theorem countP_range_span (a b n : Nat) :
    (List.range n).countP (fun x => decide (a ≤ x ∧ x < b)) = min n b - a := by
  induction n with
  | zero => simp
  | succ n ih =>
    rw [List.range_succ, List.countP_append, ih, List.countP_singleton]
    simp only [decide_eq_true_eq]
    split <;> omega

theorem countP_rejected (why : DecodeError) :
    ((List.range 1024).countP fun w => decide (decode (BitVec.ofNat 10 w) = .error why)) =
      min 1024 (reservedSpan why).2 - (reservedSpan why).1 := by
  rw [← countP_range_span]
  refine List.countP_congr fun w hw => ?_
  rw [decide_eq_true_iff, decide_eq_true_iff, decode_eq_error_iff, reservedFor_iff_span, BitVec.toNat_ofNat,
    Nat.mod_eq_of_lt (List.mem_range.mp hw)]

end Sys2Proof

namespace Sys2Proof.Machine

theorem fetchEntry_of_reserved {k : Nat} {stretch : Bool} {e : Presented} {co : Option Presented} {rest : List Input}
    {s : State} {u : Slave} {why : DecodeError} (hu : s.slaves[k]? = some u) (hwhy : decode e.word = .error why) :
    fetchEntry k stretch e co rest s = .refuse (.reservedWord e.word why) := by
  simp only [fetchEntry, hu, hwhy]

/-- Settles O4: the counts are the lengths of the four spans, and an entry whose first word is reserved is refused. -/
theorem reservedWordsAreRefused : Obligations.ReservedWordsAreRefused := by
  refine ⟨countP_rejected _, countP_rejected _, countP_rejected _, countP_rejected _, ?_⟩
  intro s k st e co rest u why hp hu hwhy
  simp only [step, fetch, hp, fetchEntry_of_reserved hu hwhy]

end Sys2Proof.Machine
end

section
/-! The opcode table (R74): its rows select the legal words and no others. -/

namespace Sys2Proof

theorem encoding_fits_table (i : Instr) : Laws.EncodingFitsTable.Statement i := by
  cases i with
  | col => exact Laws.EncodingFitsTable.col
  | am addr => exact Laws.EncodingFitsTable.am addr
  | dw => exact Laws.EncodingFitsTable.dw
  | dweOv wcol => exact Laws.EncodingFitsTable.dweOv wcol
  | dweWcol => exact Laws.EncodingFitsTable.dweWcol
  | dr ov wcol => exact Laws.EncodingFitsTable.dr ov wcol
  | stop => exact Laws.EncodingFitsTable.stop

/-- A row fixes the bits its mask covers. -/
theorem OpcodeRow.extractLsb'_of_selects {r : OpcodeRow} {w : EventWord} {start len : Nat} (h : r.selects w = true)
    (hmask : r.mask.extractLsb' start len = BitVec.allOnes len) :
    w.extractLsb' start len = r.pattern.extractLsb' start len := by
  rw [← beq_iff_eq.mp h, BitVec.extractLsb'_and, hmask, BitVec.and_allOnes]

theorem kindField_of_selects {r : OpcodeRow} {w : EventWord} (hr : r ∈ opcodeTable) (h : r.selects w = true) :
    kindField w = kindField r.pattern := by
  have hmask : ∀ r ∈ opcodeTable, r.mask.extractLsb' 8 2 = BitVec.allOnes 2 := by decide
  exact r.extractLsb'_of_selects h (hmask r hr)

/-- The field `start`, `len` of the words a row selects is 0, when every row of the words' kind has it 0 under its mask. -/
theorem field_eq_zero_of_selects {k : BitVec 2} {start len : Nat}
    (hrows : ∀ r ∈ opcodeTable, kindField r.pattern = k →
      r.mask.extractLsb' start len = BitVec.allOnes len ∧ r.pattern.extractLsb' start len = 0)
    {r : OpcodeRow} {w : EventWord} (hr : r ∈ opcodeTable) (h : r.selects w = true) (hk : kindField w = k) :
    w.extractLsb' start len = 0 := by
  obtain ⟨hmask, hzero⟩ := hrows r hr (kindField_of_selects hr h ▸ hk)
  rw [r.extractLsb'_of_selects h hmask, hzero]

/-- The rows select legal words only (R74, R76): each has the reserved field of its kind's format (R72) 0 under its mask. -/
theorem not_reservedFor_of_selects {r : OpcodeRow} {w : EventWord} {why : DecodeError} (hr : r ∈ opcodeTable)
    (h : r.selects w = true) : ¬ ReservedFor w why := by
  intro hres
  cases why with
  | collisionPayload =>
    obtain ⟨hk, hp⟩ := hres
    exact hp (field_eq_zero_of_selects (by decide) hr h hk)
  | addressBit7 =>
    obtain ⟨hk, hbit⟩ := hres
    have hzero : w.extractLsb' 7 1 = 0 := field_eq_zero_of_selects (by decide) hr h hk
    rw [addrReservedBit, BitVec.getLsbD_eq_extractLsb', hzero] at hbit
    exact absurd hbit (by decide)
  | dataBits =>
    obtain ⟨hk, hdata⟩ := hres
    exact hdata (field_eq_zero_of_selects (by decide) hr h hk)
  | stopPayload =>
    obtain ⟨hk, hp⟩ := hres
    exact hp (field_eq_zero_of_selects (by decide) hr h hk)
  | notAnEventWord => exact hres

/-- Settles O3: a legal word is the word of its event, whose row `EncodingFitsTable` gives; a word that a row selects is
not reserved. -/
theorem decoderFollowsOpcodeTable : Obligations.DecoderFollowsOpcodeTable := by
  intro w
  constructor
  · intro i h
    obtain rfl := decode_eq_ok_iff.mp h
    exact encoding_fits_table i
  · intro why h r hr
    exact eq_false_of_ne_true fun hsel => not_reservedFor_of_selects hr hsel (decode_eq_error_iff.mp h)

end Sys2Proof
end

section
/-! The port rendering of the callbacks (R79, R80). -/

namespace Sys2Proof.Machine

/-- Settles O59: `strobeOf` at the four callbacks. -/
theorem callbackPortCodes : Obligations.CallbackPortCodes := fun _ _ _ => ⟨rfl, rfl, rfl, rfl⟩

end Sys2Proof.Machine
end

section
/-!
Coincident events in one entry (R92, R179 (a)): a Collision carries one event of another kind, handled as the next entry; any
other pair is refused.
-/

namespace Sys2Proof

theorem Instr.mayCoincide_iff {i j : Instr} : i.mayCoincide j = true ↔ i = .col ∧ j ≠ .col := by
  cases i with
  | col => cases j <;> simp [Instr.mayCoincide]
  | _ => simp [Instr.mayCoincide]

end Sys2Proof

namespace Sys2Proof.Machine

theorem coincidenceOk_some {i j : Instr} {e : Presented} (hj : decode e.word = .ok j) :
    coincidenceOk i (some e) = i.mayCoincide j := by
  simp [coincidenceOk, hj]

theorem step_of_accepted_entry {s : State} {k : Nat} {stretch : Bool} {e : Presented} {co : Option Presented}
    {rest : List Input} {u : Slave} {i : Instr} (hp : s.pending = .entry k stretch e co :: rest)
    (hu : s.slaves[k]? = some u) (hi : decode e.word = .ok i) (hok : coincidenceOk i co = true) :
    step s = exec i (acceptInto k stretch e u (afterFirst k co rest) s) := by
  simp only [step, fetch, hp, fetchEntry, hu, hi, hok, if_true]

theorem step_of_illegal_pair {s : State} {k : Nat} {stretch : Bool} {c e : Presented} {rest : List Input} {u : Slave}
    {i : Instr} (hp : s.pending = .entry k stretch c (some e) :: rest) (hu : s.slaves[k]? = some u)
    (hi : decode c.word = .ok i) (hno : coincidenceOk i (some e) = false) :
    step s = .refused (.illegalCoincidence c.word e.word) := by
  simp [step, fetch, hp, fetchEntry, hu, hi, hno]

theorem step_of_missing_instance {s : State} {k : Nat} {stretch : Bool} {e : Presented} {co : Option Presented}
    {rest : List Input} (hp : s.pending = .entry k stretch e co :: rest) (hu : s.slaves[k]? = none) :
    step s = .refused (.noSuchInstance k) := by
  simp only [step, fetch, hp, fetchEntry, hu]

/-- Settles O7: both steps accept the Collision with the same queue behind it; without the instance both are refused alike. -/
theorem coincidentEntryIsTwoEvents : Obligations.CoincidentEntryIsTwoEvents := by
  intro s k st c e rest j hp hc he hj
  cases hu : s.slaves[k]? with
  | none =>
    exact (step_of_missing_instance hp hu).trans (step_of_missing_instance (s := { s with pending := _ }) rfl hu).symm
  | some u =>
    have hok : coincidenceOk .col (some e) = true :=
      (coincidenceOk_some he).trans (Instr.mayCoincide_iff.mpr ⟨rfl, hj⟩)
    exact (step_of_accepted_entry hp hu hc hok).trans (step_of_single_entry (s := { s with pending := _ }) rfl hu hc).symm

/-- Settles O8: the pair is not the one that may coincide. -/
theorem otherCoincidencesAreRefused : Obligations.OtherCoincidencesAreRefused := by
  intro s k st c e rest u i j hp hu hi hj hpair
  refine step_of_illegal_pair hp hu hi ((coincidenceOk_some hj).trans (eq_false_of_ne_true fun hmay => ?_))
  obtain ⟨hcol, hother⟩ := Instr.mayCoincide_iff.mp hmay
  exact hpair.elim (absurd hcol) hother

end Sys2Proof.Machine
end

section
/-!
Every event completes (R94): under the invariant, with callbacks that return, one of the paths of `EventEffect` is open to
every event.
-/

namespace Sys2Proof.Machine

theorem Instance.Inv.read?_isSome {i : Instance} (h : i.Inv) {n : Nat} (hn : n < i.cfg.cap) :
    (i.buf.read? n).isSome = true := by
  obtain ⟨b, hb⟩ := Memory.read?_of_lt h.wf_buf hn
  exact Option.isSome_of_eq_some hb

/-- The append and, when the buffer is full, each policy of the arbiter (R111, R114). -/
theorem EventEffect.exists_receive (k : Nat) {u : Slave} (hu : u.inst.Inv) (hr : u.app.onRead = .returns) :
    ∃ v, EventEffect k u .dw v := by
  cases ha : u.inst.active with
  | false => exact ⟨_, .idleReceive ha⟩
  | true =>
    by_cases hi : u.inst.index = u.inst.cfg.cap
    · have hs : (u.inst.buf.read? 0).isSome = true := hu.read?_isSome hu.cap_pos
      cases hp : u.inst.cfg.policy with
      | triggerFlush =>
        obtain ⟨bytes, hb, -⟩ := Memory.payload_of_le hu.wf_buf le_rfl
        exact ⟨_, .flush bytes ha hi hp hs hr hb⟩
      | ignore => exact ⟨_, .ignore ha hi hp⟩
      | overwrite => exact ⟨_, .overwrite ha hi hp hs⟩
    · exact ⟨_, .append ha hi (hu.read?_isSome (Nat.lt_of_le_of_ne hu.index_le hi))⟩

/-- The byte sent is read from the content `write()` leaves, from the buffer, or is the filler (R125, R126, R128). -/
theorem EventEffect.exists_transmit (ov wcol : Bool) (k : Nat) {u : Slave} (hu : u.inst.Inv)
    (hw : u.app.onWrite = .returns) : ∃ v, EventEffect k u (.dr ov wcol) v := by
  cases ha : u.inst.active with
  | false => exact ⟨_, .idleTransmit ov wcol ha⟩
  | true =>
    by_cases hi : u.inst.index = 0
    · obtain ⟨b, hb⟩ := Memory.read?_of_lt (Memory.wf_fill hu.wf_buf u.app.fill) hu.cap_pos
      exact ⟨_, .firstByte ov wcol b ha hi hw hu.cap_pos hb⟩
    · by_cases hc : u.inst.index < u.inst.cfg.cap
      · obtain ⟨b, hb⟩ := Memory.read?_of_lt hu.wf_buf hc
        exact ⟨_, .laterByte ov wcol b ha hi hc hb⟩
      · exact ⟨_, .filler ov wcol ha hi hc⟩

/-- The pending flush is at most `CAP` bytes long, so its payload exists (R135, R136). -/
theorem EventEffect.exists_stop (k : Nat) {u : Slave} (hu : u.inst.Inv) (hr : u.app.onRead = .returns)
    (he : u.app.onEnd = .returns) : ∃ v, EventEffect k u .stop v := by
  cases ha : u.inst.active with
  | false => exact ⟨_, .idleStop ha⟩
  | true =>
    by_cases hd : u.inst.direction = .write
    · obtain ⟨bytes, hb, -⟩ := Memory.payload_of_le hu.wf_buf hu.index_le
      exact ⟨_, .stopFlush bytes ha hd hr he hb⟩
    · exact ⟨_, .stopPlain ha hd he⟩

theorem EventEffect.exists_of_cooperative (i : Instr) (k : Nat) {u : Slave} (hu : u.inst.Inv) (happ : u.app.cooperative) :
    ∃ v, EventEffect k u i v := by
  obtain ⟨hbegin, hread, hwrite, hend⟩ := happ
  cases i with
  | col => exact ⟨_, .collision⟩
  | am addr => exact ⟨_, .addressMatch addr hbegin⟩
  | dw => exact EventEffect.exists_receive k hu hread
  | dweOv wcol => exact ⟨_, .discardOv wcol⟩
  | dweWcol => exact ⟨_, .discardWcol⟩
  | dr ov wcol => exact EventEffect.exists_transmit ov wcol k hu hwrite
  | stop => exact EventEffect.exists_stop k hu hread hend

/-- Settles O29: the path that is open to the event is what `exec` answers, and every path keeps the invariant. -/
theorem everyEventCompletes : Obligations.EveryEventCompletes := by
  intro s u i hs hu happ
  have hinv : u.inst.Inv := hs.2 u (current?_mem hu)
  obtain ⟨v, heffect⟩ := EventEffect.exists_of_cooperative i s.cur hinv happ
  exact ⟨v, heffect.exec_eq hu, heffect.keeps_inv hinv⟩

end Sys2Proof.Machine
end

section
/-! The phase machine (R98) and the actions of one event (R12, R97), read off the paths of `EventEffect`. -/

namespace Sys2Proof.Machine

/-- Settles O39: `AM`, `COL` and an open `STOP` write the phase, an idle `STOP` finds it closed, no other path writes it. -/
theorem phaseTransitions : Obligations.PhaseTransitions := by
  intro i s t u v hu h hv
  obtain ⟨heffect, -⟩ := exec_next_current hu h hv
  cases heffect with
  | discardOv wcol => simp
  | idleStop ha => exact ha
  | _ => rfl

/-- The action lists of an event, over all the contexts it may meet. -/
inductive EventActions : Instr → List Action → Prop where
  /-- R100 -/
  | collision : EventActions .col [.rel, .drr]
  /-- R105 -/
  | addressMatch (addr : SlaveAddr) : EventActions (.am addr) [.drr, .beginCall addr, .rel]
  /-- R110, the overflow row -/
  | discardOv (wcol : Bool) :
      EventActions (.dweOv wcol) ([.drr, .clrOv] ++ (if wcol then [.clrWcol] else []) ++ [.rel])
  /-- R110, the write-collision row -/
  | discardWcol : EventActions .dweWcol [.drr, .clrWcol, .rel]
  /-- R113, R116, R117, R118 -/
  | receive : EventActions .dw [.drr, .rel]
  /-- R115 -/
  | flush (bytes : List Byte) (n : Nat) : EventActions .dw [.drr, .readCall bytes n, .rel]
  /-- R130 -/
  | idleTransmit (ov wcol : Bool) : EventActions (.dr ov wcol) [.rel]
  /-- R126 with `0 < index`, R128 -/
  | transmit (ov wcol : Bool) (b : Byte) : EventActions (.dr ov wcol) [.drw b, .rel]
  /-- R126 with `index = 0` -/
  | firstByte (ov wcol : Bool) (b : Byte) : EventActions (.dr ov wcol) [.writeCall, .drw b, .rel]
  /-- R137 -/
  | idleStop : EventActions .stop [.rel]
  /-- R135 with a pending flush -/
  | stopFlush (bytes : List Byte) (n : Nat) : EventActions .stop [.readCall bytes n, .endCall, .rel]
  /-- R135 with none -/
  | stopPlain : EventActions .stop [.endCall, .rel]

/-- What an event adds to the trace. -/
theorem EventEffect.actions {k : Nat} {u v : Slave} {i : Instr} (h : EventEffect k u i v) :
    ∃ acts, v.trace = u.trace ++ acts ∧ EventActions i acts := by
  cases h with
  | collision => exact ⟨_, by simp, .collision⟩
  | addressMatch addr hb => exact ⟨_, by simp, .addressMatch addr⟩
  | discardOv wcol => exact ⟨_, by simp, .discardOv wcol⟩
  | discardWcol => exact ⟨_, by simp, .discardWcol⟩
  | idleReceive ha => exact ⟨_, by simp, .receive⟩
  | append ha hi hs => exact ⟨_, by simp, .receive⟩
  | flush bytes ha hi hp hs hr hb => exact ⟨_, by simp, .flush bytes u.inst.cfg.cap⟩
  | ignore ha hi hp => exact ⟨_, by simp, .receive⟩
  | overwrite ha hi hp hs => exact ⟨_, by simp, .receive⟩
  | idleTransmit ov wcol ha => exact ⟨_, by simp, .idleTransmit ov wcol⟩
  | firstByte ov wcol b ha hi hw hc hb => exact ⟨_, by simp, .firstByte ov wcol b⟩
  | laterByte ov wcol b ha hi hc hb => exact ⟨_, by simp, .transmit ov wcol b⟩
  | filler ov wcol ha hi hc => exact ⟨_, by simp, .transmit ov wcol u.inst.cfg.txFiller⟩
  | fillerNoCell ov wcol ha hi hw hc => exact ⟨_, by simp, .firstByte ov wcol u.inst.cfg.txFiller⟩
  | idleStop ha => exact ⟨_, by simp, .idleStop⟩
  | stopFlush bytes ha hd hr he hb => exact ⟨_, by simp, .stopFlush bytes u.inst.index⟩
  | stopPlain ha hd he => exact ⟨_, by simp, .stopPlain⟩

/-- Settles O38: the bounds are counted in each action list. -/
theorem actionsPerEventAreBounded : Obligations.ActionsPerEventAreBounded := by
  intro i s t u v hu h hv
  obtain ⟨heffect, -⟩ := exec_next_current hu h hv
  obtain ⟨acts, htrace, hacts⟩ := heffect.actions
  refine ⟨acts, htrace, ?_⟩
  cases hacts with
  | discardOv wcol => cases wcol <;> decide
  | _ => simp [List.countP_cons, Action.isDrw, Action.isCallback]

end Sys2Proof.Machine
end

section
/-! The register `IDX` (R22, R29). -/

namespace Sys2Proof.Machine

/-- `IDX_W` bits hold the numbers 0 to `CAP` (R5). -/
theorem lt_two_pow_idxWidth {cap n : Nat} (h : n ≤ cap) : n < 2 ^ idxWidth cap := by
  unfold idxWidth
  split
  · next hcap => simpa [hcap] using h
  · exact h.trans_lt Nat.lt_log2_self

/-- Settles O56: under the invariant `index`, and below `CAP` its successor, are at most `CAP`. -/
theorem indexFitsItsRegister : Obligations.IndexFitsItsRegister := by
  intro i hi
  refine ⟨?_, fun hlt => lt_two_pow_idxWidth hlt⟩
  rw [idxWord, BitVec.toNat_ofNat, Nat.mod_eq_of_lt (lt_two_pow_idxWidth hi.index_le)]

end Sys2Proof.Machine
end

section
/-!
The Collision event and the silence after it (R100 to R104): what one event, one input, one step and a run can do to
an idle instance that gets no `AM`.
-/

namespace Sys2Proof.Machine

/-! ### One event -/

/-- Settles O14: the one path of `COL`, its actions in their order. -/
theorem collisionEffect : Obligations.CollisionEffect := by
  refine ⟨rfl, fun s u hu => ⟨_, EventEffect.collision.exec_eq hu, rfl, ?actions, rfl, rfl, rfl⟩⟩
  case actions => simp

/-- Between `u` and `v` no callback was invoked, and `v` is idle (R101). -/
structure SilentUntil (u v : Slave) : Prop where
  calls_eq : v.calls = u.calls
  callbacks_eq : callbacksOf v.trace = callbacksOf u.trace
  idle : v.inst.active = false

theorem SilentUntil.of_idle {u : Slave} (ha : u.inst.active = false) : SilentUntil u u := ⟨rfl, rfl, ha⟩

theorem SilentUntil.of_actions {u v : Slave} (acts : List Action) (htrace : v.trace = u.trace ++ acts)
    (hacts : callbacksOf acts = []) (hcalls : v.calls = u.calls) (ha : v.inst.active = false) : SilentUntil u v := by
  have hcallbacks : callbacksOf v.trace = callbacksOf u.trace ++ callbacksOf acts := by
    rw [htrace]
    exact List.filterMap_append
  exact ⟨hcalls, by rw [hcallbacks, hacts, List.append_nil], ha⟩

theorem SilentUntil.trans {u v w : Slave} (huv : SilentUntil u v) (hvw : SilentUntil v w) : SilentUntil u w :=
  ⟨hvw.calls_eq.trans huv.calls_eq, hvw.callbacks_eq.trans huv.callbacks_eq, hvw.idle⟩

/-- Accepting an event is no callback, so silence from then on is silence from before. -/
theorem SilentUntil.of_accepted {stretch : Bool} {e : Presented} {u v : Slave}
    (h : SilentUntil (acceptEvent stretch e u) v) : SilentUntil u v := ⟨h.calls_eq, h.callbacks_eq, h.idle⟩

/-- A Collision is silent in any context (R100). -/
theorem EventEffect.silent_of_collision {k : Nat} {u v : Slave} (h : EventEffect k u .col v) : SilentUntil u v := by
  cases h
  exact .of_actions [.rel, .drr] (by simp) rfl rfl rfl

/-- The idle arms (R91) are silent; the paths of an open transaction are closed to an idle instance. -/
theorem EventEffect.silent_of_idle {k : Nat} {u v : Slave} {i : Instr} (h : EventEffect k u i v)
    (hidle : u.inst.active = false) (hi : isAm i = false) : SilentUntil u v := by
  cases h with
  | collision => exact EventEffect.silent_of_collision .collision
  | addressMatch addr hb => cases hi
  | discardOv wcol =>
    have hacts : callbacksOf ([.drr, .clrOv] ++ (if wcol then [.clrWcol] else []) ++ [.rel]) = [] := by
      cases wcol <;> rfl
    exact .of_actions _ (by simp) hacts (by simp) (by simpa using hidle)
  | discardWcol => exact .of_actions [.drr, .clrWcol, .rel] (by simp) rfl rfl hidle
  | idleReceive ha => exact .of_actions [.drr, .rel] (by simp) rfl rfl hidle
  | idleTransmit ov wcol ha => exact .of_actions [.rel] (by simp) rfl rfl hidle
  | idleStop ha => exact .of_actions [.rel] (by simp) rfl rfl hidle
  | _ => exact absurd ‹u.inst.active = true› (by simp [hidle])

/-! ### One input -/

/-- `SlaveStep` together with the input it answers: what input `x` does to the instance `k` it is for. -/
inductive InputEffect (k : Nat) (u : Slave) : Input → Slave → Prop where
  | reset : InputEffect k u (.reset k) (resetSlave k u)
  | event {stretch : Bool} {e : Presented} {co : Option Presented} {i : Instr} {v : Slave} (hi : decode e.word = .ok i)
      (h : EventEffect k (acceptEvent stretch e u) i v) : InputEffect k u (.entry k stretch e co) v

/-- A step with an input pending replaces the instance the input is for, and no other (R60, R190). -/
theorem step_input {s t : State} {x : Input} {rest : List Input} (hp : s.pending = x :: rest) (h : step s = .next t) :
    ∃ k u v, s.slaves[k]? = some u ∧ InputEffect k u x v ∧ t.slaves = s.slaves.set k v := by
  rcases step_next h with
    ⟨hnil, -⟩ | ⟨k, rest', u, hp', hu, rfl⟩ | ⟨k, stretch, e, co, rest', u, i, hp', hu, hi, -, hexec⟩
  · simp [hp] at hnil
  · cases hp.symm.trans hp'
    exact ⟨k, u, _, hu, .reset, rfl⟩
  · cases hp.symm.trans hp'
    obtain ⟨w, v, hw, heffect, rfl⟩ := exec_next hexec
    obtain rfl : acceptEvent stretch e u = w := Option.some.inj ((current?_acceptInto hu).symm.trans hw)
    exact ⟨k, u, v, hu, .event hi heffect, by simp [acceptInto]⟩

theorem isAm_of_opensAt {k : Nat} {stretch : Bool} {e : Presented} {co : Option Presented} {i : Instr}
    (h : opensAt k (.entry k stretch e co) = false) (hi : decode e.word = .ok i) : isAm i = false := by
  obtain ⟨hfirst, -⟩ : e.decodesTo isAm = false ∧ (co.map (Presented.decodesTo isAm)).getD false = false := by
    simpa [opensAt] using h
  simpa [Presented.decodesTo, hi] using hfirst

theorem InputEffect.silent_of_idle {k : Nat} {u v : Slave} {x : Input} (h : InputEffect k u x v)
    (hidle : u.inst.active = false) (hx : opensAt k x = false) : SilentUntil u v := by
  cases h with
  | reset => exact ⟨rfl, rfl, rfl⟩
  | event hi heffect => exact (heffect.silent_of_idle hidle (isAm_of_opensAt hx hi)).of_accepted

/-! ### One step -/

/-- With nothing pending the engine waits (R35). -/
theorem eq_of_step_waiting {s t : State} (hp : s.pending = []) (h : step s = .next t) : t = s := by
  simpa [step, fetch, hp, eq_comm] using h

/-- The inputs pending in `s` bring instance `k` no `AM`. -/
def NoAmFor (k : Nat) (s : State) : Prop := ∀ x ∈ s.pending, opensAt k x = false

/-- The event that coincides with a Collision is one its entry brings. -/
theorem opensAt_coincident {k j : Nat} {stretch : Bool} {c e : Presented}
    (h : opensAt k (.entry j stretch c (some e)) = false) : opensAt k (.entry j false e none) = false := by
  simp only [opensAt, Option.map_some, Option.getD_some, Option.map_none, Option.getD_none, Bool.or_false,
    Bool.and_eq_false_iff, Bool.or_eq_false_iff] at h ⊢
  exact h.imp_right And.right

theorem step_keeps_noAmFor {k : Nat} {s t : State} (hs : NoAmFor k s) (h : step s = .next t) : NoAmFor k t := by
  cases hp : s.pending with
  | nil =>
    obtain rfl := eq_of_step_waiting hp h
    exact hs
  | cons x rest =>
    rw [NoAmFor, hp] at hs
    obtain ⟨hx, hrest⟩ := List.forall_mem_cons.mp hs
    rw [NoAmFor, inputsAreTakenInOrder s t x rest hp h]
    cases x with
    | reset j => exact hrest
    | entry j stretch e co =>
      cases co with
      | none => exact hrest
      | some e' => exact List.forall_mem_cons.mpr ⟨opensAt_coincident hx, hrest⟩

theorem step_silent_of_idle {k : Nat} {s t : State} {u : Slave} (hs : NoAmFor k s) (hu : s.slaves[k]? = some u)
    (hidle : u.inst.active = false) (h : step s = .next t) : ∃ v, t.slaves[k]? = some v ∧ SilentUntil u v := by
  cases hp : s.pending with
  | nil =>
    obtain rfl := eq_of_step_waiting hp h
    exact ⟨u, hu, .of_idle hidle⟩
  | cons x rest =>
    obtain ⟨j, w, v, hw, heffect, hset⟩ := step_input hp h
    by_cases hj : j = k
    · subst hj
      cases hu.symm.trans hw
      obtain ⟨hlt, -⟩ := List.getElem?_eq_some_iff.mp hu
      have hx : opensAt j x = false := hs x (by simp [hp])
      exact ⟨v, by simp [hset, hlt], heffect.silent_of_idle hidle hx⟩
    · exact ⟨u, by rw [hset, List.getElem?_set_ne hj, hu], .of_idle hidle⟩

theorem step_collision_silent {k : Nat} {s t : State} {u : Slave} {stretch : Bool} {c : Presented}
    {co : Option Presented} {rest : List Input} (hp : s.pending = .entry k stretch c co :: rest)
    (hc : decode c.word = .ok .col) (hu : s.slaves[k]? = some u) (h : step s = .next t) :
    ∃ v, t.slaves[k]? = some v ∧ SilentUntil u v := by
  obtain ⟨j, w, v, hw, heffect, hset⟩ := step_input hp h
  cases heffect with
  | event hi heffect =>
    cases hu.symm.trans hw
    cases hc.symm.trans hi
    obtain ⟨hlt, -⟩ := List.getElem?_eq_some_iff.mp hu
    exact ⟨v, by simp [hset, hlt], heffect.silent_of_collision.of_accepted⟩

/-! ### A run -/

theorem run_silent_of_idle {n k : Nat} {s t : State} {u v : Slave} (hs : NoAmFor k s) (hu : s.slaves[k]? = some u)
    (hidle : u.inst.active = false) (h : core.run n s = .next t) (hv : t.slaves[k]? = some v) : SilentUntil u v := by
  induction n generalizing s u with
  | zero =>
    obtain rfl := core_run_zero.mp h
    cases hu.symm.trans hv
    exact .of_idle hidle
  | succ n ih =>
    obtain ⟨s', hstep, hrun⟩ := core_run_succ.mp h
    obtain ⟨w, hw, huw⟩ := step_silent_of_idle hs hu hidle hstep
    exact huw.trans (ih (step_keeps_noAmFor hs hstep) hw huw.idle hrun)

/-- Settles O47: the Collision is silent and leaves `k` idle, and an idle instance stays silent until an `AM`. -/
theorem collisionSilencesTransaction : Obligations.CollisionSilencesTransaction := by
  intro n s t k st c co rest u v hp hc hs hu hrun hv
  obtain ⟨s', hstep, hrun⟩ := core_run_succ.mp hrun
  obtain ⟨w, hw, huw⟩ := step_collision_silent hp hc hu hstep
  have hwv : SilentUntil w v := run_silent_of_idle (step_keeps_noAmFor hs hstep) hw huw.idle hrun hv
  obtain ⟨hcalls, hcallbacks, hidle⟩ := huw.trans hwv
  exact ⟨hcalls, hcallbacks, hidle⟩

end Sys2Proof.Machine
end

section
/-! The events that store no byte (R100, R105, R110, R135): the registers of the instance after each. -/

namespace Sys2Proof.Machine

theorem EventEffect.inst_of_col {k : Nat} {u v : Slave} (h : EventEffect k u .col v) :
    v.inst = { u.inst with active := false } := by
  cases h
  rfl

theorem EventEffect.inst_of_am {k : Nat} {u v : Slave} {addr : SlaveAddr} (h : EventEffect k u (.am addr) v) :
    v.inst = { u.inst with index := 0, direction := .none, active := true } := by
  cases h
  rfl

theorem EventEffect.inst_of_dweOv {k : Nat} {u v : Slave} {wcol : Bool} (h : EventEffect k u (.dweOv wcol) v) :
    v.inst = u.inst := by
  cases h
  simp

theorem EventEffect.inst_of_dweWcol {k : Nat} {u v : Slave} (h : EventEffect k u .dweWcol v) : v.inst = u.inst := by
  cases h
  rfl

/-- The callbacks of a `STOP` write no register (R157), and an idle `STOP` finds `active` clear (R137). -/
theorem EventEffect.inst_of_stop {k : Nat} {u v : Slave} (h : EventEffect k u .stop v) :
    v.inst = { u.inst with active := false } := by
  cases h with
  | idleStop ha => simp [← ha]
  | stopFlush bytes ha hd hr he hb => rfl
  | stopPlain ha hd he => rfl

/-- Settles O33: none of the five writes `buf`, and each writes no other register than the statement allows it. -/
theorem nonStoringEventsFrame : Obligations.NonStoringEventsFrame := by
  intro i s t u v hu h hv
  obtain ⟨heffect, -⟩ := exec_next_current hu h hv
  cases i with
  | col => simp [heffect.inst_of_col]
  | am addr => simp [heffect.inst_of_am]
  | dw => simp [isAm]
  | dweOv wcol => simp [heffect.inst_of_dweOv]
  | dweWcol => simp [heffect.inst_of_dweWcol]
  | dr ov wcol => simp [isAm]
  | stop => simp [heffect.inst_of_stop]

end Sys2Proof.Machine
end

section
/-!
A queue of single-event entries for one instance (R60, R98): what it makes of the instance, that cooperative entries are all
handled, and that handling them is a run of the machine.
-/

namespace Sys2Proof.Machine

/-- What the entries `xs`, all for instance `k` and of one event each, make of the instance `u`, one after the other. -/
inductive EntriesEffect (k : Nat) : Slave → List Input → Slave → Prop where
  | nil (u : Slave) : EntriesEffect k u [] u
  | cons {u v w : Slave} {stretch : Bool} {e : Presented} {i : Instr} {xs : List Input} (hi : decode e.word = .ok i)
      (h : EventEffect k (acceptEvent stretch e u) i v) (hrest : EntriesEffect k v xs w) :
      EntriesEffect k u (.entry k stretch e none :: xs) w

@[simp] theorem entriesEffect_nil_iff {k : Nat} {u v : Slave} : EntriesEffect k u [] v ↔ v = u := by
  constructor
  · rintro ⟨⟩
    rfl
  · rintro rfl
    exact .nil v

/-- The first of the entries, when it is one that an expansion of R82 makes, presents its event. -/
theorem entriesEffect_entryOf_cons_iff {k : Nat} {u w : Slave} {i : Instr} {dr : Byte} {fill : List Byte} {xs : List Input} :
    EntriesEffect k u (entryOf k i dr fill :: xs) w ↔
      ∃ v, EventEffect k (acceptEvent true (presentEvent i dr fill) u) i v ∧ EntriesEffect k v xs w := by
  constructor
  · intro h
    cases h with
    | cons hi h hrest =>
      cases (decode_encode i).symm.trans hi
      exact ⟨_, h, hrest⟩
  · rintro ⟨v, h, hrest⟩
    exact .cons (decode_encode i) h hrest

theorem entriesEffect_append_iff {k : Nat} {u w : Slave} {xs ys : List Input} :
    EntriesEffect k u (xs ++ ys) w ↔ ∃ v, EntriesEffect k u xs v ∧ EntriesEffect k v ys w := by
  constructor
  · intro h
    induction xs generalizing u with
    | nil => exact ⟨u, .nil u, h⟩
    | cons x xs ih =>
      cases h with
      | cons hi h hrest =>
        obtain ⟨v, hxs, hys⟩ := ih hrest
        exact ⟨v, .cons hi h hxs, hys⟩
  · rintro ⟨v, hxs, hys⟩
    induction hxs with
    | nil => exact hys
    | cons hi h _ ih => exact .cons hi h (ih hys)

/-- Events only add to the record of the callbacks. -/
theorem EventEffect.calls_prefix {k : Nat} {u v : Slave} {i : Instr} (h : EventEffect k u i v) : u.calls <+: v.calls := by
  cases h <;> simp

theorem EntriesEffect.calls_prefix {k : Nat} {u v : Slave} {xs : List Input} (h : EntriesEffect k u xs v) :
    u.calls <+: v.calls := by
  induction h with
  | nil => exact List.prefix_rfl
  | cons _ h _ ih => exact List.IsPrefix.trans h.calls_prefix ih

/-- An entry of one legal event for instance `k`, with an application that keeps its duties (R211, R215, R216). -/
inductive DutifulEntry (k : Nat) : Input → Prop where
  | mk {stretch : Bool} {e : Presented} {i : Instr} (hi : decode e.word = .ok i) (happ : e.app.cooperative) :
      DutifulEntry k (.entry k stretch e none)

theorem dutifulEntry_entryOf (k : Nat) (i : Instr) (dr : Byte) (fill : List Byte) : DutifulEntry k (entryOf k i dr fill) :=
  .mk (decode_encode i) ⟨rfl, rfl, rfl, rfl⟩

/-- R94 for a sequence: under the invariant dutiful entries are all handled, and the invariant is kept throughout. -/
theorem EntriesEffect.exists_of_dutiful {k : Nat} {u : Slave} {xs : List Input} (hu : u.inst.Inv)
    (hxs : ∀ x ∈ xs, DutifulEntry k x) : ∃ v, EntriesEffect k u xs v := by
  induction xs generalizing u with
  | nil => exact ⟨u, .nil u⟩
  | cons x xs ih =>
    obtain ⟨hx, hrest⟩ := List.forall_mem_cons.mp hxs
    cases hx with
    | @mk stretch e i hi happ =>
      obtain ⟨v, h⟩ := EventEffect.exists_of_cooperative i k (u := acceptEvent stretch e u) hu happ
      obtain ⟨w, hw⟩ := ih (h.keeps_inv hu) hrest
      exact ⟨w, .cons hi h hw⟩

/-- The machine with these entries at the head of its queue handles them, one a step (R60). -/
theorem EntriesEffect.run {k : Nat} {u v : Slave} {xs rest : List Input} (h : EntriesEffect k u xs v) {s : State}
    (hu : s.slaves[k]? = some u) (hp : s.pending = xs ++ rest) :
    ∃ t, core.run xs.length s = .next t ∧ t.pending = rest ∧ t.slaves[k]? = some v := by
  induction h generalizing s with
  | nil => exact ⟨s, core_run_zero.mpr rfl, hp, hu⟩
  | @cons u v w stretch e i xs hi h _ ih =>
    have hcur : current? (acceptInto k stretch e u (xs ++ rest) s) = some (acceptEvent stretch e u) :=
      current?_acceptInto hu
    have hstep : step s = .next (putCurrent (acceptInto k stretch e u (xs ++ rest) s) v) :=
      (step_of_single_entry hp hu hi).trans (h.exec_eq hcur)
    obtain ⟨t, hrun, hrest, hw⟩ := ih (current?_putCurrent hcur v) rfl
    exact ⟨t, core_run_succ.mpr ⟨_, hstep, hrun⟩, hrest, hw⟩

end Sys2Proof.Machine
end

section
/-!
A write, a repeated start and a read (R106, R220, R221): the bytes of the write stay below `CAP` and flush nothing, the second
`AM` closes no transaction, and the read finds no flush pending.
-/

namespace Sys2Proof.Machine

/-! ### The events that call no `read` -/

theorem readsOf_append (xs ys : List Action) : readsOf (xs ++ ys) = readsOf xs ++ readsOf ys := List.filterMap_append

theorem EventEffect.readsOf_eq {k : Nat} {u v : Slave} {i : Instr} (h : EventEffect k u i v)
    (hi : ∀ acts, EventActions i acts → readsOf acts = []) : readsOf v.trace = readsOf u.trace := by
  obtain ⟨acts, htrace, hacts⟩ := h.actions
  rw [htrace, readsOf_append, hi acts hacts, List.append_nil]

theorem EventEffect.readsOf_eq_of_am {k : Nat} {u v : Slave} {addr : SlaveAddr} (h : EventEffect k u (.am addr) v) :
    readsOf v.trace = readsOf u.trace :=
  h.readsOf_eq fun _ hacts => by cases hacts; rfl

theorem EventEffect.readsOf_eq_of_dr {k : Nat} {u v : Slave} {ov wcol : Bool} (h : EventEffect k u (.dr ov wcol) v) :
    readsOf v.trace = readsOf u.trace :=
  h.readsOf_eq fun _ hacts => by cases hacts <;> rfl

/-- A `STOP` with no flush pending (R135). -/
theorem EventEffect.readsOf_eq_of_stop {k : Nat} {u v : Slave} (h : EventEffect k u .stop v)
    (hd : u.inst.direction ≠ .write) : readsOf v.trace = readsOf u.trace := by
  cases h with
  | idleStop ha => simp [readsOf, Action.readArgs?]
  | stopFlush bytes ha hwrite hr he hb => exact absurd hwrite hd
  | stopPlain ha hnot he => simp [readsOf, Action.readArgs?]

/-! ### The bytes of the write -/

/-- A `DW` of an open transaction below `CAP` has one path, the append (R113). -/
theorem EventEffect.eq_append {k : Nat} {u v : Slave} (h : EventEffect k u .dw v) (hactive : u.inst.active = true)
    (hlt : u.inst.index < u.inst.cfg.cap) :
    (u.inst.buf.read? u.inst.index).isSome = true ∧
      v = releaseClock (appended (drValue u) (setDirection .write (drRead k u))) := by
  cases h with
  | idleReceive ha => simp [hactive] at ha
  | append ha hi hs => exact ⟨hs, rfl⟩
  | flush bytes ha hi hp hs hr hb => exact absurd hi hlt.ne
  | ignore ha hi hp => exact absurd hi hlt.ne
  | overwrite ha hi hp hs => exact absurd hi hlt.ne

/-- From `u` to `v` the bytes `bs` went to the cells from `u`'s `index` on, the cells before it kept theirs, and no `read` was
called. -/
structure BytesAppended (u : Slave) (bs : List Byte) (v : Slave) : Prop where
  readsOf_eq : readsOf v.trace = readsOf u.trace
  below : ∀ j < u.inst.index, v.inst.buf.read? j = u.inst.buf.read? j
  stored : ∀ j b, bs[j]? = some b → v.inst.buf.read? (u.inst.index + j) = some b

theorem BytesAppended.nil (u : Slave) : BytesAppended u [] u := ⟨rfl, fun _ _ => rfl, nofun⟩

/-- One byte to the cell `index`, and the others after it. -/
theorem BytesAppended.cons {u v w : Slave} {b : Byte} {bs : List Byte} (hreads : readsOf v.trace = readsOf u.trace)
    (hindex : v.inst.index = u.inst.index + 1) (hcell : (u.inst.buf.read? u.inst.index).isSome = true)
    (hbuf : v.inst.buf = u.inst.buf.write u.inst.index b) (h : BytesAppended v bs w) : BytesAppended u (b :: bs) w where
  readsOf_eq := h.readsOf_eq.trans hreads
  below j hj := by rw [h.below j (by omega), hbuf, Memory.read?_write_ne _ hj.ne]
  stored j c hc := by
    cases j with
    | zero =>
      obtain rfl : b = c := by simpa using hc
      obtain ⟨old, hold⟩ := Option.isSome_iff_exists.mp hcell
      rw [Nat.add_zero, h.below _ (by omega), hbuf, Memory.read?_write_self hold]
    | succ j =>
      have := h.stored j c (by simpa using hc)
      rwa [hindex, Nat.add_assoc, Nat.add_comm 1 j] at this

theorem EntriesEffect.bytesAppended {k : Nat} {u v : Slave} {bs : List Byte}
    (h : EntriesEffect k u (bs.map fun b => entryOf k .dw b []) v) (ha : u.inst.active = true)
    (hfit : u.inst.index + bs.length ≤ u.inst.cfg.cap) : BytesAppended u bs v := by
  induction bs generalizing u with
  | nil =>
    obtain rfl := entriesEffect_nil_iff.mp h
    exact .nil v
  | cons b bs ih =>
    rw [List.length_cons] at hfit
    obtain ⟨w, hw, hrest⟩ := entriesEffect_entryOf_cons_iff.mp h
    obtain ⟨hcell, rfl⟩ := hw.eq_append ha (by simp only [acceptEvent_inst]; omega)
    have hreads : readsOf (u.trace ++ [.drr] ++ [.rel]) = readsOf u.trace := by
      simp [readsOf, Action.readArgs?]
    exact .cons hreads rfl hcell rfl (ih hrest ha (by simp; omega))

/-! ### The bytes of the read -/

/-- A `DR` of an open transaction writes `direction`, and beside it only `index` and `buf` (R125). -/
theorem EventEffect.inst_of_dr {k : Nat} {u v : Slave} {ov wcol : Bool} (h : EventEffect k u (.dr ov wcol) v)
    (hactive : u.inst.active = true) :
    v.inst = { u.inst with direction := .read, index := v.inst.index, buf := v.inst.buf } := by
  cases h with
  | idleTransmit _ _ ha => simp [hactive] at ha
  | _ => rfl

/-- The `write` of the first `DR`, and what it sees (R126, R154, R156). -/
theorem EventEffect.calls_of_first_dr {k : Nat} {u v : Slave} {ov wcol : Bool} (h : EventEffect k u (.dr ov wcol) v)
    (hactive : u.inst.active = true) (hindex : u.inst.index = 0) :
    v.calls = u.calls ++ [⟨.writeCall, { u.inst with direction := .read }, u.adapter.sclHold⟩] := by
  cases h with
  | idleTransmit _ _ ha => simp [hactive] at ha
  | firstByte => rfl
  | laterByte _ _ b ha hi hc hb => exact absurd hindex hi
  | filler _ _ ha hi hc => exact absurd hindex hi
  | fillerNoCell => rfl

/-- The transaction is open and its `STOP` would flush nothing (R135). -/
structure OpenUnflushed (u : Slave) : Prop where
  active : u.inst.active = true
  direction_ne : u.inst.direction ≠ .write

theorem EventEffect.openUnflushed_of_dr {k : Nat} {u v : Slave} {ov wcol : Bool} (h : EventEffect k u (.dr ov wcol) v)
    (hactive : u.inst.active = true) : OpenUnflushed v := by
  have hinst := h.inst_of_dr hactive
  constructor
  · rw [hinst]
    exact hactive
  · rw [hinst]
    nofun

theorem EntriesEffect.drs_flush_nothing {k m : Nat} {u v : Slave} {fill : List Byte}
    (h : EntriesEffect k u (List.replicate m (entryOf k (.dr false false) 0 fill)) v) (hu : OpenUnflushed u) :
    OpenUnflushed v ∧ readsOf v.trace = readsOf u.trace := by
  induction m generalizing u with
  | zero =>
    obtain rfl := entriesEffect_nil_iff.mp h
    exact ⟨hu, rfl⟩
  | succ m ih =>
    obtain ⟨w, hw, hrest⟩ := entriesEffect_entryOf_cons_iff.mp h
    obtain ⟨hv, hreads⟩ := ih hrest (hw.openUnflushed_of_dr hu.active)
    exact ⟨hv, hreads.trans hw.readsOf_eq_of_dr⟩

/-- Of a read of at least one byte, the `write` sees the buffer as it stands when the read begins. -/
theorem EntriesEffect.exists_write_of_drs {k m : Nat} {u v : Slave} {fill : List Byte}
    (h : EntriesEffect k u (List.replicate m (entryOf k (.dr false false) 0 fill)) v) (ha : u.inst.active = true)
    (hindex : u.inst.index = 0) (hm : 1 ≤ m) :
    ∃ c, c.call = .writeCall ∧ c.inst.buf = u.inst.buf ∧ u.calls ++ [c] <+: v.calls := by
  obtain ⟨m, rfl⟩ := Nat.exists_eq_add_of_le' hm
  obtain ⟨w, hw, hrest⟩ := entriesEffect_entryOf_cons_iff.mp h
  exact ⟨_, rfl, rfl, hw.calls_of_first_dr ha hindex ▸ hrest.calls_prefix⟩

/-! ### The whole sequence -/

theorem dutifulEntry_of_mem_wrtx (k : Nat) (a : SlaveAddr) (bs : List Byte) (m : Nat) (fill : List Byte) :
    ∀ x ∈ wrtx k a bs m fill, DutifulEntry k x := by
  intro x hx
  simp only [wrtx, List.mem_append, List.mem_cons, List.mem_map, List.mem_replicate, List.not_mem_nil, or_false] at hx
  rcases hx with ((rfl | ⟨b, -, rfl⟩) | (rfl | ⟨-, rfl⟩)) | rfl
  all_goals exact dutifulEntry_entryOf ..

@[simp] theorem length_wrtx (k : Nat) (a : SlaveAddr) (bs : List Byte) (m : Nat) (fill : List Byte) :
    (wrtx k a bs m fill).length = bs.length + m + 3 := by
  simp only [wrtx, List.length_append, List.length_cons, List.length_map, List.length_replicate, List.length_nil]
  omega

/-- What the sequence makes of an instance: the transaction is closed, no `read` was called, and the `write` of a read of at
least one byte finds the bytes `bs` in the cells 0, 1, …. -/
theorem EntriesEffect.of_wrtx {k m : Nat} {u v : Slave} {a : SlaveAddr} {bs fill : List Byte}
    (h : EntriesEffect k u (wrtx k a bs m fill) v) (hfit : bs.length ≤ u.inst.cfg.cap) :
    v.inst.active = false ∧ readsOf v.trace = readsOf u.trace ∧
      ∃ views, v.calls = u.calls ++ views ∧
        (1 ≤ m → ∃ c ∈ views, c.call = .writeCall ∧ ∀ j b, bs[j]? = some b → c.inst.buf.read? j = some b) := by
  obtain ⟨reading, hopen, hstop⟩ := entriesEffect_append_iff.mp h
  obtain ⟨written, hwrite, hread⟩ := entriesEffect_append_iff.mp hopen
  obtain ⟨opened, ham, hdws⟩ := entriesEffect_entryOf_cons_iff.mp hwrite
  obtain ⟨reopened, ham', hdrs⟩ := entriesEffect_entryOf_cons_iff.mp hread
  obtain ⟨closed, hclose, hnil⟩ := entriesEffect_entryOf_cons_iff.mp hstop
  obtain rfl := entriesEffect_nil_iff.mp hnil
  have happended : BytesAppended opened bs written :=
    hdws.bytesAppended (by simp [ham.inst_of_am]) (by simpa [ham.inst_of_am] using hfit)
  have hstored : ∀ j b, bs[j]? = some b → reopened.inst.buf.read? j = some b := by
    simpa [ham.inst_of_am, ham'.inst_of_am] using happended.stored
  have hactive : reopened.inst.active = true := by simp [ham'.inst_of_am]
  have hindex : reopened.inst.index = 0 := by simp [ham'.inst_of_am]
  obtain ⟨hunflushed, hreads⟩ := hdrs.drs_flush_nothing ⟨hactive, by simp [ham'.inst_of_am]⟩
  refine ⟨by simp [hclose.inst_of_stop], ?reads, ?calls⟩
  case reads =>
    calc readsOf v.trace = readsOf reading.trace := hclose.readsOf_eq_of_stop hunflushed.direction_ne
      _ = readsOf reopened.trace := hreads
      _ = readsOf written.trace := ham'.readsOf_eq_of_am
      _ = readsOf opened.trace := happended.readsOf_eq
      _ = readsOf u.trace := ham.readsOf_eq_of_am
  case calls =>
    by_cases hm : 1 ≤ m
    · obtain ⟨c, hcall, hbuf, hpre⟩ := hdrs.exists_write_of_drs hactive hindex hm
      obtain ⟨before, hbefore⟩ : u.calls <+: reopened.calls :=
        List.IsPrefix.trans hwrite.calls_prefix ham'.calls_prefix
      obtain ⟨after, hafter⟩ := List.IsPrefix.trans hpre hstop.calls_prefix
      exact ⟨before ++ c :: after, by simp [← hafter, ← hbefore], fun _ => ⟨c, by simp, hcall, hbuf ▸ hstored⟩⟩
    · obtain ⟨views, hviews⟩ := h.calls_prefix
      exact ⟨views, hviews.symm, fun hm' => absurd hm' hm⟩

/-- Settles O53: the entries of the sequence are all handled, and `EntriesEffect.of_wrtx` says what they make of the instance. -/
theorem repeatedStartKeepsBytesInBuffer : Obligations.RepeatedStartKeepsBytesInBuffer := by
  intro s k u a bs m fill rest ⟨_, hinv⟩ hu hfit hp
  obtain ⟨v, heffect⟩ :=
    EntriesEffect.exists_of_dutiful (hinv u (List.mem_of_getElem? hu)) (dutifulEntry_of_mem_wrtx k a bs m fill)
  obtain ⟨t, hrun, hrest, hv⟩ := heffect.run hu hp
  obtain ⟨hidle, hreads, views, hcalls, hwrite⟩ := heffect.of_wrtx hfit
  exact ⟨t, v, views, length_wrtx k a bs m fill ▸ hrun, hrest, hv, hidle, hreads, hcalls, hwrite⟩

end Sys2Proof.Machine
end

section
/-! AddressMatch (R105 to R109), and the address register, which no event reads (R107). -/

namespace Sys2Proof.Machine

/-- The word of an `AM` is its kind field above its address (R71, R73; D1). -/
theorem toNat_encode_am (a : SlaveAddr) : (encode (.am a)).toNat = 0x100 + a.toNat := by
  rw [encode, BitVec.toNat_append, ← Nat.shiftLeft_add_eq_or_of_lt a.isLt]
  rfl

/-- Settles O15: the one path of `AM` with a `begin` that returns, its actions in their order. -/
theorem addressMatchEffect : Obligations.AddressMatchEffect := by
  refine ⟨toNat_encode_am, fun s u addr hu hb => ?_⟩
  exact ⟨_, (EventEffect.addressMatch addr hb).exec_eq hu, rfl, by simp, rfl, rfl, rfl⟩

/-- The instance with another address in its register. -/
def withAddress (a : SlaveAddr) (u : Slave) : Slave :=
  { u with inst := { u.inst with cfg := { u.inst.cfg with address := a } } }

/-- `v'` is `v` but for the address `a` in its register and the record of what the callbacks saw. -/
structure AgreesButAddress (a : SlaveAddr) (v v' : Slave) : Prop where
  inst_eq : v'.inst = (withAddress a v).inst
  trace_eq : v'.trace = v.trace
  adapter_eq : v'.adapter = v.adapter
  draws_eq : v'.draws = v.draws

/-- R107: the path an event takes does not depend on the address register, and neither does what it does there. -/
theorem EventEffect.exists_withAddress {k : Nat} {u v : Slave} {i : Instr} (h : EventEffect k u i v) (a : SlaveAddr) :
    ∃ v', EventEffect k (withAddress a u) i v' ∧ AgreesButAddress a v v' := by
  cases h with
  | collision => exact ⟨_, .collision, rfl, rfl, rfl, rfl⟩
  | addressMatch addr hb => exact ⟨_, .addressMatch addr hb, rfl, rfl, rfl, rfl⟩
  | discardOv wcol => exact ⟨_, .discardOv wcol, by cases wcol <;> exact ⟨rfl, rfl, rfl, rfl⟩⟩
  | discardWcol => exact ⟨_, .discardWcol, rfl, rfl, rfl, rfl⟩
  | idleReceive ha => exact ⟨_, .idleReceive ha, rfl, rfl, rfl, rfl⟩
  | append ha hi hs => exact ⟨_, .append ha hi hs, rfl, rfl, rfl, rfl⟩
  | flush bytes ha hi hp hs hr hb => exact ⟨_, .flush bytes ha hi hp hs hr hb, rfl, rfl, rfl, rfl⟩
  | ignore ha hi hp => exact ⟨_, .ignore ha hi hp, rfl, rfl, rfl, rfl⟩
  | overwrite ha hi hp hs => exact ⟨_, .overwrite ha hi hp hs, rfl, rfl, rfl, rfl⟩
  | idleTransmit ov wcol ha => exact ⟨_, .idleTransmit ov wcol ha, rfl, rfl, rfl, rfl⟩
  | firstByte ov wcol b ha hi hw hc hb => exact ⟨_, .firstByte ov wcol b ha hi hw hc hb, rfl, rfl, rfl, rfl⟩
  | laterByte ov wcol b ha hi hc hb => exact ⟨_, .laterByte ov wcol b ha hi hc hb, rfl, rfl, rfl, rfl⟩
  | filler ov wcol ha hi hc => exact ⟨_, .filler ov wcol ha hi hc, rfl, rfl, rfl, rfl⟩
  | fillerNoCell ov wcol ha hi hw hc => exact ⟨_, .fillerNoCell ov wcol ha hi hw hc, rfl, rfl, rfl, rfl⟩
  | idleStop ha => exact ⟨_, .idleStop ha, rfl, rfl, rfl, rfl⟩
  | stopFlush bytes ha hd hr he hb => exact ⟨_, .stopFlush bytes ha hd hr he hb, rfl, rfl, rfl, rfl⟩
  | stopPlain ha hd he => exact ⟨_, .stopPlain ha hd he, rfl, rfl, rfl, rfl⟩

/-- Replacing the current instance twice is replacing it once. -/
theorem putCurrent_putCurrent (s : State) (u v : Slave) : putCurrent (putCurrent s u) v = putCurrent s v := by
  simp [putCurrent]

/-- Settles O43: the same path is open with the other address, and it agrees but for that register. -/
theorem addressIsNeverRead : Obligations.AddressIsNeverRead := by
  intro i s t u v a hu h hv
  obtain ⟨heffect, -⟩ := exec_next_current hu h hv
  obtain ⟨v', heffect', hinst, htrace, hadapter, hdraws⟩ := heffect.exists_withAddress a
  have hexec : exec i (putCurrent s (withAddress a u)) = .next (putCurrent s v') := by
    rw [← putCurrent_putCurrent s (withAddress a u) v']
    exact heffect'.exec_eq (s := putCurrent s (withAddress a u)) (current?_putCurrent hu _)
  exact ⟨v', hexec, hinst, htrace, hadapter, hdraws⟩

end Sys2Proof.Machine
end

section
/-!
The receive path, one event at a time (R110 to R118): each path of `DWE` and `DW`, the cell it stores to, and what it leaves
unchanged.
-/

namespace Sys2Proof.Machine

/-! ### Flagged bytes (R110) -/

/-- Settles O16: the one path of each row; `clearFlagged` says which conditions it clears, and in which order. -/
theorem flaggedByteIsDiscarded : Obligations.FlaggedByteIsDiscarded := by
  refine ⟨rfl, rfl, rfl, fun s u hu => ⟨fun wcol => ?overflow, ?writeCollision⟩⟩
  case overflow =>
    exact ⟨_, (EventEffect.discardOv wcol).exec_eq hu, by simp, by simp, by simp, by simp, by simp⟩
  case writeCollision =>
    exact ⟨_, EventEffect.discardWcol.exec_eq hu, rfl, by simp, rfl, rfl, by simp⟩

/-! ### The arms of `DW` that store no byte (R116, R118) -/

/-- Settles O19: the path of the arbiter under `Ignore`. -/
theorem fullBufferIgnoresByte : Obligations.FullBufferIgnoresByte := by
  intro s u hu ha hi hp
  exact ⟨_, (EventEffect.ignore ha hi hp).exec_eq hu, rfl, by simp, rfl, rfl, rfl⟩

/-- Settles O21: the idle path of `DW`. -/
theorem idleReceiveDiscards : Obligations.IdleReceiveDiscards := by
  intro s u hu ha
  exact ⟨_, (EventEffect.idleReceive ha).exec_eq hu, rfl, by simp, rfl, rfl, rfl⟩

/-! ### The arms that store one (R113, R115, R117) -/

/-- A store to a cell that exists: the form is kept, the cell holds the byte, and every other cell is unchanged (R113). -/
theorem Memory.write_of_lt {m : Memory} {cap i : Nat} (hw : m.wf cap = true) (hi : i < cap) (b : Byte) :
    (m.write i b).wf cap = true ∧ (m.write i b).read? i = some b ∧
      ∀ a, a ≠ i → (m.write i b).read? a = m.read? a := by
  obtain ⟨old, hold⟩ := Memory.read?_of_lt hw hi
  exact ⟨Memory.wf_write hw i b, Memory.read?_write_self hold b, fun a ha => Memory.read?_write_ne m ha b⟩

theorem Memory.read?_isSome_of_lt {m : Memory} {cap i : Nat} (hw : m.wf cap = true) (hi : i < cap) :
    (m.read? i).isSome = true :=
  Option.isSome_iff_exists.mpr (Memory.read?_of_lt hw hi)

/-- Settles O17: the append, to the cell that `index` names. -/
theorem receivedByteIsAppended : Obligations.ReceivedByteIsAppended := by
  refine ⟨rfl, fun s u hu ha hw hi => ?_⟩
  have hcell := Memory.read?_isSome_of_lt hw hi
  obtain ⟨hwf, hstored, hothers⟩ := Memory.write_of_lt hw hi (drValue u)
  exact ⟨_, (EventEffect.append ha hi.ne hcell).exec_eq hu, rfl, hwf, hstored, hothers, by simp, rfl, rfl, rfl⟩

/-- Settles O18: the payload is read before the store, which then goes to cell 0. -/
theorem fullBufferTriggersFlush : Obligations.FullBufferTriggersFlush := by
  intro s u hu ha hw hcap hi hp hr
  have hcell := Memory.read?_isSome_of_lt hw hcap
  obtain ⟨bytes, hbytes, hlength, hcontent⟩ := Memory.payload_of_le hw le_rfl
  obtain ⟨hwf, hstored, hothers⟩ := Memory.write_of_lt hw hcap (drValue u)
  exact ⟨_, bytes, (EventEffect.flush bytes ha hi hp hcell hr hbytes).exec_eq hu, hlength, hcontent, rfl, hwf, hstored,
    hothers, by simp, rfl, rfl, rfl⟩

/-- Settles O20: the path of the arbiter under `Overwrite`, with the store to cell 0. -/
theorem fullBufferIsOverwritten : Obligations.FullBufferIsOverwritten := by
  intro s u hu ha hw hcap hi hp
  have hcell := Memory.read?_isSome_of_lt hw hcap
  obtain ⟨hwf, hstored, hothers⟩ := Memory.write_of_lt hw hcap (drValue u)
  exact ⟨_, (EventEffect.overwrite ha hi hp hcell).exec_eq hu, rfl, hwf, hstored, hothers, by simp, rfl, rfl, rfl⟩

/-! ### The frame of `DW` -/

/-- A path of `DW` writes `buf` only by a store to the cell `receiveCell` names. -/
theorem EventEffect.buf_of_dw {k : Nat} {u v : Slave} (h : EventEffect k u .dw v) :
    v.inst.buf = ((receiveCell u.inst).map fun a => u.inst.buf.write a (drValue u)).getD u.inst.buf := by
  cases h with
  | idleReceive ha => simp [receiveCell, ha]
  | append ha hi hs => simp [receiveCell, ha, hi]
  | flush bytes ha hi hp hs hr hb => simp [receiveCell, ha, hi, hp]
  | ignore ha hi hp => simp [receiveCell, ha, hi, hp]
  | overwrite ha hi hp hs => simp [receiveCell, ha, hi, hp]

theorem EventEffect.active_of_dw {k : Nat} {u v : Slave} (h : EventEffect k u .dw v) : v.inst.active = u.inst.active := by
  cases h <;> rfl

/-- Settles O34: a store to one cell leaves the others as they were. -/
theorem receiveFrame : Obligations.ReceiveFrame := by
  intro s t u v hu h hv
  obtain ⟨heffect, -⟩ := exec_next_current hu h hv
  refine ⟨heffect.active_of_dw, fun a ha => ?_⟩
  rw [heffect.buf_of_dw]
  cases hcell : receiveCell u.inst with
  | none => rfl
  | some i => exact Memory.read?_write_ne _ (fun hai => ha (by rw [hcell, hai])) _

end Sys2Proof.Machine
end

section
/-!
The `read` callbacks that R119 gives a pure write transaction, as a rule on byte groups: one last group is read whole, and what a
leading group of `CAP` bytes adds depends on the policy.
-/

namespace Sys2Proof.Machine

/-- A group that the `STOP` flushes is read whole, whatever the policy (R135). -/
theorem expectedReads_of_length_le (p : Policy) {cap : Nat} {q : List Byte} (hne : q ≠ []) (hle : q.length ≤ cap) :
    expectedReads p cap q = [(q, q.length)] := by
  have hpos : 0 < q.length := List.length_pos_iff.mpr hne
  have hlt : q.length - 1 < cap := by omega
  cases p with
  | triggerFlush => simp [expectedReads, Nat.div_eq_of_lt hlt, List.take_of_length_le hle, hle]
  | ignore => simp [expectedReads, List.take_of_length_le hle, hle]
  | overwrite => simp [expectedReads, Nat.mod_eq_of_lt hlt, Nat.sub_add_cancel hpos]

/-- A full group moves the last byte of the transaction on by `CAP`. -/
theorem length_append_sub_one {cap : Nat} {q bs : List Byte} (hq : q.length = cap) (hbs : bs ≠ []) :
    (q ++ bs).length - 1 = bs.length - 1 + cap := by
  have hpos : 0 < bs.length := List.length_pos_iff.mpr hbs
  rw [List.length_append]
  omega

/-- `TriggerFlush`: a full group is read, and then the rest (R115). -/
theorem expectedReads_triggerFlush_append {cap : Nat} {q bs : List Byte} (hq : q.length = cap) (hcap : 1 ≤ cap)
    (hbs : bs ≠ []) :
    expectedReads .triggerFlush cap (q ++ bs) = (q, cap) :: expectedReads .triggerFlush cap bs := by
  have hgroups : ((q ++ bs).length - 1) / cap = (bs.length - 1) / cap + 1 := by
    rw [length_append_sub_one hq hbs, Nat.add_div_right _ hcap]
  simp only [expectedReads, hgroups]
  rw [List.range_succ_eq_map, List.map_cons, List.map_map]
  congr 1
  · simp [← hq]
  · refine List.map_congr_left fun j _ => ?_
    have hdrop : (q ++ bs).drop ((j + 1) * cap) = bs.drop (j * cap) := by
      rw [Nat.succ_mul, Nat.add_comm, ← List.drop_drop, List.drop_left' hq]
    have hlength : (q ++ bs).length - (j + 1) * cap = bs.length - j * cap := by
      rw [List.length_append, Nat.succ_mul]
      omega
    simp only [Function.comp_apply, Nat.succ_eq_add_one, hdrop, hlength]

/-- `Ignore`: nothing after a full group is read (R116). -/
theorem expectedReads_ignore_append {cap : Nat} {q : List Byte} (hq : q.length = cap) (bs : List Byte) :
    expectedReads .ignore cap (q ++ bs) = [(q, cap)] := by
  simp [expectedReads, ← hq]

/-- `Overwrite`: a full group that bytes follow is not read (R117). -/
theorem expectedReads_overwrite_append {cap : Nat} {q bs : List Byte} (hq : q.length = cap) (hbs : bs ≠ []) :
    expectedReads .overwrite cap (q ++ bs) = expectedReads .overwrite cap bs := by
  have hpos : 0 < bs.length := List.length_pos_iff.mpr hbs
  have hmod : ((q ++ bs).length - 1) % cap = (bs.length - 1) % cap := by
    rw [length_append_sub_one hq hbs, Nat.add_mod_right]
  have hle : (bs.length - 1) % cap + 1 ≤ bs.length := by
    have := Nat.mod_le (bs.length - 1) cap
    omega
  have hdrop :
      (q ++ bs).length - ((bs.length - 1) % cap + 1) = q.length + (bs.length - ((bs.length - 1) % cap + 1)) := by
    rw [List.length_append]
    omega
  simp only [expectedReads, hmod, hdrop, List.drop_length_add_append]

/-! ### What `TriggerFlush` delivers (R220) -/

/-- Every byte is in one of the payloads, in order, and each has a length of 1 to `CAP`. -/
theorem expectedReads_triggerFlush_delivers {cap : Nat} (hcap : 1 ≤ cap) {bs : List Byte} (hbs : bs ≠ []) :
    ((expectedReads .triggerFlush cap bs).map Prod.fst).flatten = bs ∧
      ∀ r ∈ expectedReads .triggerFlush cap bs, r.1.length = r.2 ∧ 1 ≤ r.2 ∧ r.2 ≤ cap := by
  by_cases hle : bs.length ≤ cap
  · rw [expectedReads_of_length_le _ hbs hle, List.forall_mem_singleton]
    exact ⟨by simp, rfl, List.length_pos_iff.mpr hbs, hle⟩
  · have hfull : (bs.take cap).length = cap := by
      rw [List.length_take]
      omega
    have hrest : bs.drop cap ≠ [] := by simpa using hle
    have hsplit : expectedReads .triggerFlush cap bs =
        (bs.take cap, cap) :: expectedReads .triggerFlush cap (bs.drop cap) := by
      rw [← expectedReads_triggerFlush_append hfull hcap hrest, List.take_append_drop]
    obtain ⟨hbytes, hlengths⟩ := expectedReads_triggerFlush_delivers hcap hrest
    rw [hsplit, List.map_cons, List.flatten_cons, hbytes, List.forall_mem_cons]
    exact ⟨List.take_append_drop cap bs, ⟨hfull, hcap, le_rfl⟩, hlengths⟩
termination_by bs.length
decreasing_by
  rw [List.length_drop]
  omega

end Sys2Proof.Machine
end

section
/-!
A pure write transaction (R119, R220): each `DW` moves the bytes accumulated in the buffer, and the `read` callbacks made so far,
along the rule of `expectedReads`; the `STOP` reads what is accumulated.
-/

namespace Sys2Proof.Machine

/-- In the open write transaction of `u` the bytes `q` are accumulated and not yet read: they stand in the cells 0, 1, … -/
structure Accumulated (u : Slave) (q : List Byte) : Prop where
  nonempty : q ≠ []
  active : u.inst.active = true
  direction : u.inst.direction = .write
  index : u.inst.index = q.length
  stored : ∀ j b, q[j]? = some b → u.inst.buf.read? j = some b

theorem Accumulated.of_appended {u : Slave} {q : List Byte} (b : Byte) (ha : u.inst.active = true)
    (hd : u.inst.direction = .write) (hi : u.inst.index = q.length)
    (hcell : (u.inst.buf.read? u.inst.index).isSome = true)
    (hstored : ∀ j c, q[j]? = some c → u.inst.buf.read? j = some c) :
    Accumulated (releaseClock (appended b u)) (q ++ [b]) where
  nonempty := by simp
  active := ha
  direction := hd
  index := by simp [hi]
  stored j c hc := by
    obtain ⟨old, hold⟩ := Option.isSome_iff_exists.mp hcell
    have hle : j < q.length + 1 := by simpa using (List.getElem?_eq_some_iff.mp hc).1
    rcases Nat.lt_succ_iff_lt_or_eq.mp hle with hj | rfl
    · rw [List.getElem?_append_left hj] at hc
      exact (Memory.read?_write_ne _ (hi ▸ hj.ne) b).trans (hstored j c hc)
    · obtain rfl : b = c := by simpa using hc
      exact hi ▸ Memory.read?_write_self hold b

/-- Accepting an event moves no byte. -/
theorem Accumulated.accepted {u : Slave} {q : List Byte} (h : Accumulated u q) (stretch : Bool) (e : Presented) :
    Accumulated (acceptEvent stretch e u) q :=
  ⟨h.nonempty, h.active, h.direction, h.index, h.stored⟩

/-- The payload of a `read` is what is accumulated (R153). -/
theorem Accumulated.eq_of_payload {u : Slave} {q bytes : List Byte} (hq : Accumulated u q) (hu : u.inst.Inv)
    (hbytes : u.inst.buf.payload u.inst.index = some bytes) : bytes = q := by
  obtain ⟨cells, hcells, hlength, hcontent⟩ := Memory.payload_of_le hu.wf_buf hu.index_le
  obtain rfl : cells = bytes := Option.some.inj (hcells.symm.trans hbytes)
  refine List.ext_getElem (hlength.trans hq.index) fun j hj hj' => ?_
  have hcell : cells[j]? = some q[j] := by
    rw [hcontent j (hlength ▸ hj), hq.stored j _ (List.getElem?_eq_getElem hj')]
  simpa [hj] using hcell

/-- One `DW`: what was read and what is still to be read, of all the transaction's bytes, stay the same together. -/
theorem Accumulated.exists_of_dw {k : Nat} {u v : Slave} {q : List Byte} (hq : Accumulated u q) (hu : u.inst.Inv)
    (h : EventEffect k u .dw v) (bs : List Byte) :
    ∃ q', Accumulated v q' ∧
      readsOf v.trace ++ expectedReads u.inst.cfg.policy u.inst.cfg.cap (q' ++ bs) =
        readsOf u.trace ++ expectedReads u.inst.cfg.policy u.inst.cfg.cap (q ++ drValue u :: bs) := by
  have hcap := hu.cap_pos
  cases h with
  | idleReceive ha => simp [hq.active] at ha
  | append ha hi hs =>
    exact ⟨q ++ [drValue u], .of_appended _ ha rfl hq.index hs hq.stored, by simp [readsOf, Action.readArgs?]⟩
  | flush bytes ha hi hp hs hr hb =>
    obtain rfl : bytes = q := hq.eq_of_payload hu (hi ▸ hb)
    have hfull : bytes.length = u.inst.cfg.cap := hq.index.symm.trans hi
    refine ⟨[] ++ [drValue u], .of_appended _ ha rfl rfl hs nofun, ?_⟩
    rw [hp, expectedReads_triggerFlush_append hfull hcap (List.cons_ne_nil _ _)]
    simp [readsOf, List.filterMap_cons, Action.readArgs?]
  | ignore ha hi hp =>
    have hfull : q.length = u.inst.cfg.cap := hq.index.symm.trans hi
    refine ⟨q, ⟨hq.nonempty, ha, rfl, hq.index, hq.stored⟩, ?_⟩
    rw [hp, expectedReads_ignore_append hfull, expectedReads_ignore_append hfull]
    simp [readsOf, Action.readArgs?]
  | overwrite ha hi hp hs =>
    have hfull : q.length = u.inst.cfg.cap := hq.index.symm.trans hi
    refine ⟨[] ++ [drValue u], .of_appended _ ha rfl rfl hs nofun, ?_⟩
    rw [hp, expectedReads_overwrite_append hfull (List.cons_ne_nil _ _)]
    simp [readsOf, Action.readArgs?]

/-- The `STOP` reads what is accumulated (R135). -/
theorem Accumulated.readsOf_of_stop {k : Nat} {u v : Slave} {q : List Byte} (hq : Accumulated u q) (hu : u.inst.Inv)
    (h : EventEffect k u .stop v) : readsOf v.trace = readsOf u.trace ++ [(q, q.length)] := by
  cases h with
  | idleStop ha => simp [hq.active] at ha
  | stopFlush bytes ha hd hr he hb =>
    obtain rfl : bytes = q := hq.eq_of_payload hu hb
    simp [readsOf, List.filterMap_cons, Action.readArgs?, hq.index]
  | stopPlain ha hd he => exact absurd hq.direction hd

/-- The rest of the transaction, from a state in which the bytes `q` are accumulated. -/
theorem EntriesEffect.readsOf_of_accumulated {k : Nat} {u w : Slave} {q bs : List Byte}
    (h : EntriesEffect k u ((bs.map fun b => entryOf k .dw b []) ++ [entryOf k .stop 0 []]) w) (hu : u.inst.Inv)
    (hq : Accumulated u q) :
    readsOf w.trace = readsOf u.trace ++ expectedReads u.inst.cfg.policy u.inst.cfg.cap (q ++ bs) := by
  induction bs generalizing u q with
  | nil =>
    obtain ⟨v, hstop, hnil⟩ := entriesEffect_entryOf_cons_iff.mp h
    obtain rfl := entriesEffect_nil_iff.mp hnil
    have hle : q.length ≤ u.inst.cfg.cap := hq.index ▸ hu.index_le
    rw [List.append_nil, expectedReads_of_length_le _ hq.nonempty hle]
    exact (hq.accepted ..).readsOf_of_stop hu hstop
  | cons b bs ih =>
    obtain ⟨v, hdw, hrest⟩ := entriesEffect_entryOf_cons_iff.mp h
    obtain ⟨q', hq', hreads⟩ := (hq.accepted ..).exists_of_dw hu hdw bs
    rw [ih hrest (hdw.keeps_inv hu) hq', hdw.cfg_eq]
    exact hreads

/-- The first `DW` of the transaction meets an empty buffer, so it appends. -/
theorem Accumulated.of_first_dw {k : Nat} {u v : Slave} (h : EventEffect k u .dw v) (hu : u.inst.Inv)
    (ha : u.inst.active = true) (hi : u.inst.index = 0) :
    Accumulated v [drValue u] ∧ readsOf v.trace = readsOf u.trace := by
  obtain ⟨hcell, rfl⟩ := h.eq_append ha (hi ▸ hu.cap_pos)
  exact ⟨.of_appended (q := []) _ ha rfl hi hcell nofun, by simp [readsOf, Action.readArgs?]⟩

/-- A transaction of no bytes makes no `read`, one of at least one byte those of `expectedReads`. -/
theorem EntriesEffect.readsOf_of_wtx {k : Nat} {u w : Slave} {a : SlaveAddr} {bs : List Byte}
    (h : EntriesEffect k u (wtx k a bs) w) (hu : u.inst.Inv) :
    readsOf w.trace = readsOf u.trace ++
      if bs = [] then [] else expectedReads u.inst.cfg.policy u.inst.cfg.cap bs := by
  obtain ⟨opened, ham, hrest⟩ := entriesEffect_entryOf_cons_iff.mp h
  have hopened : opened.inst.Inv := ham.keeps_inv hu
  cases bs with
  | nil =>
    obtain ⟨v, hstop, hnil⟩ := entriesEffect_entryOf_cons_iff.mp hrest
    obtain rfl := entriesEffect_nil_iff.mp hnil
    have hd : opened.inst.direction ≠ .write := by simp [ham.inst_of_am]
    simpa using (hstop.readsOf_eq_of_stop hd).trans ham.readsOf_eq_of_am
  | cons b bs =>
    obtain ⟨v, hdw, hrest⟩ := entriesEffect_entryOf_cons_iff.mp hrest
    have hactive : opened.inst.active = true := by simp [ham.inst_of_am]
    have hindex : opened.inst.index = 0 := by simp [ham.inst_of_am]
    obtain ⟨hq, hreads⟩ := Accumulated.of_first_dw hdw hopened hactive hindex
    have hcfg : v.inst.cfg = u.inst.cfg := hdw.cfg_eq.trans ham.cfg_eq
    rw [hrest.readsOf_of_accumulated (hdw.keeps_inv hopened) hq, hreads, hcfg, if_neg (List.cons_ne_nil b bs)]
    exact congrArg (· ++ _) ham.readsOf_eq_of_am

theorem EntriesEffect.idle_of_wtx {k : Nat} {u w : Slave} {a : SlaveAddr} {bs : List Byte}
    (h : EntriesEffect k u (wtx k a bs) w) : w.inst.active = false := by
  obtain ⟨v, -, hclose⟩ := entriesEffect_append_iff.mp h
  obtain ⟨closed, hstop, hnil⟩ := entriesEffect_entryOf_cons_iff.mp hclose
  obtain rfl := entriesEffect_nil_iff.mp hnil
  simp [hstop.inst_of_stop]

theorem dutifulEntry_of_mem_wtx (k : Nat) (a : SlaveAddr) (bs : List Byte) : ∀ x ∈ wtx k a bs, DutifulEntry k x := by
  intro x hx
  simp only [wtx, List.mem_append, List.mem_cons, List.mem_map, List.not_mem_nil, or_false] at hx
  rcases hx with (rfl | ⟨b, -, rfl⟩) | rfl
  all_goals exact dutifulEntry_entryOf ..

@[simp] theorem length_wtx (k : Nat) (a : SlaveAddr) (bs : List Byte) : (wtx k a bs).length = bs.length + 2 := by
  simp [wtx]

/-- A pure write transaction at the head of the queue is handled to its end, from every state that meets the invariant. -/
theorem exists_run_of_wtx {s : State} {k : Nat} {u : Slave} {a : SlaveAddr} {bs : List Byte} {rest : List Input}
    (hu : u.inst.Inv) (hk : s.slaves[k]? = some u) (hp : s.pending = wtx k a bs ++ rest) :
    ∃ t v, core.run (bs.length + 2) s = .next t ∧ t.pending = rest ∧ t.slaves[k]? = some v ∧
      EntriesEffect k u (wtx k a bs) v := by
  obtain ⟨v, heffect⟩ := EntriesEffect.exists_of_dutiful hu (dutifulEntry_of_mem_wtx k a bs)
  obtain ⟨t, hrun, hrest, hv⟩ := heffect.run hk hp
  exact ⟨t, v, length_wtx k a bs ▸ hrun, hrest, hv, heffect⟩

/-- Settles O50: the transaction completes, and along it what was read and what is still to be read stay the same together. -/
theorem writeTransactionReads : Obligations.WriteTransactionReads := by
  intro s k u a bs rest ⟨_, hinv⟩ hk hbs hp
  have hu : u.inst.Inv := hinv u (List.mem_of_getElem? hk)
  obtain ⟨t, v, hrun, hrest, hv, heffect⟩ := exists_run_of_wtx hu hk hp
  refine ⟨t, v, hrun, hrest, hv, heffect.idle_of_wtx, ?_⟩
  rw [heffect.readsOf_of_wtx hu, if_neg hbs]

/-- Settles O51: under `TriggerFlush` the payloads of R119 are the bytes in groups; a transaction of no bytes has none. -/
theorem triggerFlushDeliversEveryByte : Obligations.TriggerFlushDeliversEveryByte := by
  intro s k u a bs rest ⟨_, hinv⟩ hk hpolicy hp
  have hu : u.inst.Inv := hinv u (List.mem_of_getElem? hk)
  obtain ⟨t, v, hrun, -, hv, heffect⟩ := exists_run_of_wtx hu hk hp
  refine ⟨t, v, _, hrun, hv, heffect.readsOf_of_wtx hu, ?_⟩
  rw [hpolicy]
  split
  · next hnil => simp [hnil]
  · next hbs => exact expectedReads_triggerFlush_delivers hu.cap_pos hbs

end Sys2Proof.Machine
end

section
/-!
The transmit path, one event at a time (R125 to R131): each path of `DR`, the flags it ignores, and what it leaves unchanged.
-/

namespace Sys2Proof.Machine

/-! ### The paths of `DR` -/

/-- Settles O22: the byte sent is read from the content that `write()` leaves, which has a cell 0. -/
theorem firstByteCallsWrite : Obligations.FirstByteCallsWrite := by
  intro s u ov wcol hu ha hw hcap hi happ
  have hfill := Memory.wf_fill hw u.app.fill
  obtain ⟨b, hb⟩ := Memory.read?_of_lt hfill hcap
  exact ⟨_, b, (EventEffect.firstByte ov wcol b ha hi happ hcap hb).exec_eq hu, rfl, hfill,
    Memory.read?_fill u.inst.buf u.app.fill, hb, by simp, rfl, rfl, rfl, rfl⟩

/-- Settles O23: below `CAP` the cell that `index` names exists. -/
theorem laterByteIsTransmitted : Obligations.LaterByteIsTransmitted := by
  intro s u ov wcol hu ha hw hpos hlt
  obtain ⟨b, hb⟩ := Memory.read?_of_lt hw hlt
  exact ⟨_, b, (EventEffect.laterByte ov wcol b ha hpos.ne' hlt hb).exec_eq hu, hb, rfl, by simp, rfl, rfl, rfl, rfl⟩

/-- Settles O24: since `CAP` is not 0, an `index` of `CAP` calls no `write()`. -/
theorem fillerPastCapacity : Obligations.FillerPastCapacity := by
  intro s u ov wcol hu ha hcap hi
  have hindex : u.inst.index ≠ 0 := by omega
  exact ⟨_, (EventEffect.filler ov wcol ha hindex hi.not_lt).exec_eq hu, rfl, by simp, rfl, rfl, rfl, rfl⟩

/-- Settles O25: the idle path of `DR`. -/
theorem idleTransmitLoadsNothing : Obligations.IdleTransmitLoadsNothing := fun _ _ ov wcol hu ha =>
  (EventEffect.idleTransmit ov wcol ha).exec_eq hu

/-! ### The flags and the adapter -/

/-- The flags are no operand of the procedure (R127). -/
theorem exec_dr_eq (ov wcol : Bool) (s : State) : exec (.dr ov wcol) s = exec (.dr false false) s := rfl

/-- Of the adapter's registers a `DR` writes the data register and releases the clock (R127, D11). -/
theorem EventEffect.adapter_of_dr {k : Nat} {u v : Slave} {ov wcol : Bool} (h : EventEffect k u (.dr ov wcol) v) :
    v.adapter = { u.adapter with sclHold := false, dr := v.adapter.dr } := by
  cases h <;> rfl

/-- No action list of a `DR` holds a clear command (R127). -/
theorem EventActions.clears_of_dr {ov wcol : Bool} {acts : List Action} (h : EventActions (.dr ov wcol) acts) :
    acts.count .clrOv = 0 ∧ acts.count .clrWcol = 0 := by
  cases h <;> simp

/-- Settles O26: no path depends on a flag, and none clears one. -/
theorem transmitIgnoresFlags : Obligations.TransmitIgnoresFlags := by
  refine ⟨rfl, rfl, rfl, rfl, fun s ov wcol => exec_dr_eq ov wcol s, fun s t u v ov wcol hu h hv => ?_⟩
  obtain ⟨heffect, -⟩ := exec_next_current hu h hv
  obtain ⟨acts, htrace, hacts⟩ := heffect.actions
  obtain ⟨hov, hwcol⟩ := hacts.clears_of_dr
  rw [htrace, List.count_append, List.count_append, hov, hwcol, heffect.adapter_of_dr]
  exact ⟨rfl, rfl, rfl, rfl⟩

/-! ### The frame of `DR` -/

/-- A path of `DR` writes `buf` only by the `write()` of a first byte (R126, R154). -/
theorem EventEffect.buf_of_dr {k : Nat} {u v : Slave} {ov wcol : Bool} (h : EventEffect k u (.dr ov wcol) v) :
    v.inst.buf = if u.inst.active = true ∧ u.inst.index = 0 then u.inst.buf.fill u.app.fill else u.inst.buf := by
  cases h with
  | idleTransmit _ _ ha => simp [ha]
  | firstByte _ _ b ha hi hw hc hb => simp [ha, hi]
  | laterByte _ _ b ha hi hc hb => simp [hi]
  | filler _ _ ha hi hc => simp [hi]
  | fillerNoCell _ _ ha hi hw hc => simp [ha, hi]

theorem EventEffect.active_of_dr {k : Nat} {u v : Slave} {ov wcol : Bool} (h : EventEffect k u (.dr ov wcol) v) :
    v.inst.active = u.inst.active := by
  cases h <;> rfl

/-- A cell beyond the application's list keeps its byte (R154). -/
theorem Memory.read?_fill_of_length_le (m : Memory) {content : List Byte} {i : Nat} (h : content.length ≤ i) :
    (m.fill content).read? i = m.read? i := by
  simp [Memory.read?_fill, List.getElem?_eq_none h]

/-- Settles O35: `write()` is all that stores, in a first byte, and the cells beyond its list it leaves alone. -/
theorem transmitFrame : Obligations.TransmitFrame := by
  intro s t u v ov wcol hu h hv
  obtain ⟨heffect, -⟩ := exec_next_current hu h hv
  refine ⟨heffect.active_of_dr, fun hno a => ?noWrite, fun a ha => ?beyondList⟩
  case noWrite =>
    have hnot : ¬(u.inst.active = true ∧ u.inst.index = 0) := by
      rintro ⟨hactive, hindex⟩
      simp [hactive, hindex] at hno
    rw [heffect.buf_of_dr, if_neg hnot]
  case beyondList =>
    rw [heffect.buf_of_dr]
    split
    · exact Memory.read?_fill_of_length_le _ ha
    · rfl

end Sys2Proof.Machine
end

section
/-!
At most one `write` per transaction (R129): a `DataByte` event of an open transaction spends the call that is still to come
or none, and once a byte has moved there is none to come.
-/

namespace Sys2Proof.Machine

/-! ### One DataByte event -/

/-- The `write` calls still to come in an open transaction: one, while no byte has moved (R126, R129). -/
def writesToCome (u : Slave) : Nat := if u.inst.index = 0 then 1 else 0

/-- Between `u` and `v`, both open, no more `write` calls were made than `u` had to come and `v` has not. -/
structure WriteBudget (u v : Slave) : Prop where
  inv : v.inst.Inv
  active : v.inst.active = true
  count_le : u.trace.count .writeCall ≤ v.trace.count .writeCall
  spent : v.trace.count .writeCall + writesToCome v ≤ u.trace.count .writeCall + writesToCome u

theorem WriteBudget.refl {u : Slave} (hu : u.inst.Inv) (ha : u.inst.active = true) : WriteBudget u u :=
  ⟨hu, ha, le_rfl, le_rfl⟩

theorem WriteBudget.trans {u v w : Slave} (huv : WriteBudget u v) (hvw : WriteBudget v w) : WriteBudget u w :=
  ⟨hvw.inv, hvw.active, huv.count_le.trans hvw.count_le, hvw.spent.trans huv.spent⟩

/-- Accepting an event neither calls `write` nor moves `index`. -/
theorem WriteBudget.of_accepted {stretch : Bool} {e : Presented} {u v : Slave}
    (h : WriteBudget (acceptEvent stretch e u) v) : WriteBudget u v := ⟨h.inv, h.active, h.count_le, h.spent⟩

theorem writesToCome_le_of_index {u v : Slave} (h : v.inst.index = 0 → u.inst.index = 0) :
    writesToCome v ≤ writesToCome u := by
  unfold writesToCome
  split
  · next hv => simp [h hv]
  · exact Nat.zero_le _

/-- An event that calls no `write` and does not bring `index` back to 0. -/
theorem WriteBudget.of_no_write {u v : Slave} (acts : List Action) (htrace : v.trace = u.trace ++ acts)
    (hacts : acts.count .writeCall = 0) (hinv : v.inst.Inv) (ha : v.inst.active = true)
    (hindex : v.inst.index = 0 → u.inst.index = 0) : WriteBudget u v := by
  have hcount : v.trace.count .writeCall = u.trace.count .writeCall := by
    rw [htrace, List.count_append, hacts, Nat.add_zero]
  exact ⟨hinv, ha, hcount.ge, Nat.add_le_add hcount.le (writesToCome_le_of_index hindex)⟩

/-- The first outgoing byte is the only path of a DataByte that calls `write`, and it leaves `index` at 1 (R126). -/
theorem EventEffect.writeBudget {k : Nat} {u v : Slave} {i : Instr} (h : EventEffect k u i v) (hdata : isData i = true)
    (hu : u.inst.Inv) (hactive : u.inst.active = true) : WriteBudget u v := by
  have hinv := h.keeps_inv hu
  cases h with
  | collision => cases hdata
  | addressMatch addr hb => cases hdata
  | idleStop ha => cases hdata
  | stopFlush bytes ha hd hr he hb => cases hdata
  | stopPlain ha hd he => cases hdata
  | idleReceive ha => simp [hactive] at ha
  | idleTransmit ov wcol ha => simp [hactive] at ha
  | fillerNoCell ov wcol ha hi hw hc => exact absurd hc (Nat.ne_of_gt hu.cap_pos)
  | discardOv wcol =>
    have hacts : List.count Action.writeCall ([.drr, .clrOv] ++ (if wcol then [.clrWcol] else []) ++ [.rel]) = 0 := by
      cases wcol <;> rfl
    exact .of_no_write _ (by simp) hacts hinv (by simpa using hactive) (by simp)
  | discardWcol => exact .of_no_write [.drr, .clrWcol, .rel] (by simp) rfl hinv hactive id
  | append ha hi hs => exact .of_no_write [.drr, .rel] (by simp) rfl hinv ha nofun
  | flush bytes ha hi hp hs hr hb =>
    exact .of_no_write [.drr, .readCall bytes u.inst.cfg.cap, .rel] (by simp) rfl hinv ha nofun
  | ignore ha hi hp => exact .of_no_write [.drr, .rel] (by simp) rfl hinv ha id
  | overwrite ha hi hp hs => exact .of_no_write [.drr, .rel] (by simp) rfl hinv ha nofun
  | firstByte ov wcol b ha hi hw hc hb => exact ⟨hinv, ha, by simp, by simp [writesToCome, hi]⟩
  | laterByte ov wcol b ha hi hc hb => exact .of_no_write [.drw b, .rel] (by simp) rfl hinv ha nofun
  | filler ov wcol ha hi hc => exact .of_no_write [.drw u.inst.cfg.txFiller, .rel] (by simp) rfl hinv ha id

/-! ### One input -/

/-- The event of an entry that brings instance `k` only data is a DataByte (R98). -/
theorem isData_of_onlyDataAt {k : Nat} {stretch : Bool} {e : Presented} {co : Option Presented} {i : Instr}
    (h : onlyDataAt k (.entry k stretch e co) = true) (hi : decode e.word = .ok i) : isData i = true := by
  obtain ⟨hdata, -⟩ : e.decodesTo isData = true ∧ co.isNone = true := by simpa [onlyDataAt] using h
  simpa [Presented.decodesTo, hi] using hdata

theorem InputEffect.writeBudget {k : Nat} {u v : Slave} {x : Input} (h : InputEffect k u x v)
    (hx : onlyDataAt k x = true) (hu : u.inst.Inv) (ha : u.inst.active = true) : WriteBudget u v := by
  cases h with
  | reset => simp [onlyDataAt] at hx
  | event hi heffect => exact (heffect.writeBudget (isData_of_onlyDataAt hx hi) hu ha).of_accepted

/-! ### One step, and a run -/

/-- To any one instance a step does nothing, or what one of the pending inputs does to it. -/
theorem step_at {k : Nat} {s t : State} {u : Slave} (hu : s.slaves[k]? = some u) (h : step s = .next t) :
    ∃ v, t.slaves[k]? = some v ∧ (v = u ∨ ∃ x ∈ s.pending, InputEffect k u x v) := by
  cases hp : s.pending with
  | nil =>
    obtain rfl := eq_of_step_waiting hp h
    exact ⟨u, hu, .inl rfl⟩
  | cons x rest =>
    obtain ⟨j, w, v, hw, heffect, hset⟩ := step_input hp h
    by_cases hj : j = k
    · subst hj
      cases hu.symm.trans hw
      obtain ⟨hlt, -⟩ := List.getElem?_eq_some_iff.mp hu
      exact ⟨v, by simp [hset, hlt], .inr ⟨x, List.mem_cons_self, heffect⟩⟩
    · exact ⟨u, by rw [hset, List.getElem?_set_ne hj, hu], .inl rfl⟩

/-- What holds of every pending input, and passes from an entry to its coincident event, still holds after a step (R92). -/
theorem step_keeps_pending {P : Input → Prop}
    (hco : ∀ {j stretch c e}, P (.entry j stretch c (some e)) → P (.entry j false e none)) {s t : State}
    (hs : ∀ x ∈ s.pending, P x) (h : step s = .next t) : ∀ x ∈ t.pending, P x := by
  cases hp : s.pending with
  | nil =>
    obtain rfl := eq_of_step_waiting hp h
    exact hs
  | cons x rest =>
    rw [hp] at hs
    obtain ⟨hx, hrest⟩ := List.forall_mem_cons.mp hs
    rw [inputsAreTakenInOrder s t x rest hp h]
    cases x with
    | reset j => exact hrest
    | entry j stretch c co =>
      cases co with
      | none => exact hrest
      | some e => exact List.forall_mem_cons.mpr ⟨hco hx, hrest⟩

/-- An entry with a coincident event that brings instance `k` only data is an entry for another instance. -/
theorem onlyDataAt_coincident {k j : Nat} {stretch : Bool} {c e : Presented}
    (h : onlyDataAt k (.entry j stretch c (some e)) = true) : onlyDataAt k (.entry j false e none) = true := by
  have hother : (j != k) = true := by simpa [onlyDataAt] using h
  simp [onlyDataAt, hother]

theorem run_writeBudget {n k : Nat} {s t : State} {u v : Slave} (hs : ∀ x ∈ s.pending, onlyDataAt k x = true)
    (hu : s.slaves[k]? = some u) (hinv : u.inst.Inv) (ha : u.inst.active = true) (h : core.run n s = .next t)
    (hv : t.slaves[k]? = some v) : WriteBudget u v := by
  induction n generalizing s u with
  | zero =>
    obtain rfl := core_run_zero.mp h
    cases hu.symm.trans hv
    exact .refl hinv ha
  | succ n ih =>
    obtain ⟨s', hstep, hrun⟩ := core_run_succ.mp h
    have hs' := step_keeps_pending onlyDataAt_coincident hs hstep
    obtain ⟨w, hw, rfl | ⟨x, hx, heffect⟩⟩ := step_at hu hstep
    · exact ih hs' hw hinv ha hrun
    · have huw := heffect.writeBudget (hs x hx) hinv ha
      exact huw.trans (ih hs' hw huw.inv huw.active hrun)

/-- Settles O48: there is one call to come while `index` is 0, and none afterwards. -/
theorem writeCalledAtMostOnce : Obligations.WriteCalledAtMostOnce := by
  intro n s t k u v ⟨_, hinv⟩ hu ha hs hrun hv
  obtain ⟨-, -, hle, hspent⟩ := run_writeBudget hs hu (hinv u (List.mem_of_getElem? hu)) ha hrun hv
  by_cases hindex : u.inst.index = 0
  · have hone : writesToCome u = 1 := if_pos hindex
    exact ⟨by omega, by omega⟩
  · have hnone : writesToCome u = 0 := if_neg hindex
    exact ⟨by omega, fun _ => by omega⟩

end Sys2Proof.Machine
end

section
/-!
A pure read transaction (R126, R128): at each position the `DR` sends the byte of that cell as `write()` left it, and the filler
past the end.
-/

namespace Sys2Proof.Machine

/-! ### What an event sends -/

/-- From `u` to `v` the bytes `sent` were loaded for transmission, and `write` was called `writes` times. -/
structure Sends (u v : Slave) (writes : Nat) (sent : List Byte) : Prop where
  writes_eq : v.trace.count .writeCall = u.trace.count .writeCall + writes
  sent_eq : sentBytes v.trace = sentBytes u.trace ++ sent

theorem Sends.refl (u : Slave) : Sends u u 0 [] := ⟨rfl, (List.append_nil _).symm⟩

theorem Sends.of_actions {u v : Slave} {acts : List Action} (h : v.trace = u.trace ++ acts) :
    Sends u v (acts.count .writeCall) (sentBytes acts) := by
  constructor
  · rw [h, List.count_append]
  · rw [h]
    exact List.filterMap_append

theorem Sends.trans {u v w : Slave} {m n : Nat} {bs cs : List Byte} (huv : Sends u v m bs) (hvw : Sends v w n cs) :
    Sends u w (m + n) (bs ++ cs) := by
  constructor
  · rw [hvw.writes_eq, huv.writes_eq, Nat.add_assoc]
  · rw [hvw.sent_eq, huv.sent_eq, List.append_assoc]

/-- Accepting an event adds nothing to the trace. -/
theorem Sends.of_accepted {stretch : Bool} {e : Presented} {u v : Slave} {n : Nat} {bs : List Byte}
    (h : Sends (acceptEvent stretch e u) v n bs) : Sends u v n bs := ⟨h.writes_eq, h.sent_eq⟩

theorem EventEffect.sends_of_am {k : Nat} {u v : Slave} {addr : SlaveAddr} (h : EventEffect k u (.am addr) v) :
    Sends u v 0 [] := by
  obtain ⟨acts, htrace, hacts⟩ := h.actions
  cases hacts
  exact .of_actions htrace

theorem EventEffect.sends_of_stop {k : Nat} {u v : Slave} (h : EventEffect k u .stop v) : Sends u v 0 [] := by
  obtain ⟨acts, htrace, hacts⟩ := h.actions
  cases hacts <;> exact .of_actions htrace

/-! ### One outgoing byte -/

/-- The byte at position `p` of a read from the buffer content `m`: the cell's, or the filler past the end (R126, R128). -/
def byteSentAt (cfg : InstConfig) (m : Memory) (p : Nat) : Option Byte :=
  if p < cfg.cap then m.read? p else some cfg.txFiller

/-- `u` is in an open read that has sent `p` bytes, all from the content `m`; `index` stands at `p`, or stays at `CAP`. -/
structure ReadingAt (m : Memory) (p : Nat) (u : Slave) : Prop where
  active : u.inst.active = true
  index : u.inst.index = min p u.inst.cfg.cap
  buf : u.inst.buf = m

/-- Accepting an event moves nothing of the read. -/
theorem ReadingAt.accepted {m : Memory} {p : Nat} {u : Slave} (h : ReadingAt m p u) (stretch : Bool) (e : Presented) :
    ReadingAt m p (acceptEvent stretch e u) := ⟨h.active, h.index, h.buf⟩

/-- The first `DR` calls `write()` and sends cell 0 of what it leaves (R126, R129). -/
theorem EventEffect.sends_first_byte {k : Nat} {u v : Slave} {ov wcol : Bool} (h : EventEffect k u (.dr ov wcol) v)
    (hu : u.inst.Inv) (hactive : u.inst.active = true) (hindex : u.inst.index = 0) :
    ReadingAt (u.inst.buf.fill u.app.fill) 1 v ∧
      ∃ b, byteSentAt u.inst.cfg (u.inst.buf.fill u.app.fill) 0 = some b ∧ Sends u v 1 [b] := by
  cases h with
  | idleTransmit _ _ ha => simp [hactive] at ha
  | firstByte _ _ b ha hi hw hc hb =>
    exact ⟨⟨ha, (Nat.min_eq_left hc).symm, rfl⟩, b, (if_pos hc).trans hb,
      .of_actions (acts := [.writeCall, .drw b, .rel]) (by simp)⟩
  | laterByte _ _ b ha hi hc hb => exact absurd hindex hi
  | filler _ _ ha hi hc => exact absurd hindex hi
  | fillerNoCell _ _ ha hi hw hc => exact absurd hc (Nat.ne_of_gt hu.cap_pos)

/-- A later `DR` calls no `write()` and sends the next cell, or the filler (R126, R128). -/
theorem ReadingAt.sends_later_byte {k p : Nat} {m : Memory} {u v : Slave} {ov wcol : Bool} (hread : ReadingAt m p u)
    (hp : 1 ≤ p) (hu : u.inst.Inv) (h : EventEffect k u (.dr ov wcol) v) :
    ReadingAt m (p + 1) v ∧ ∃ b, byteSentAt u.inst.cfg m p = some b ∧ Sends u v 0 [b] := by
  obtain ⟨hactive, hindex, rfl⟩ := hread
  have hcap := hu.cap_pos
  cases h with
  | idleTransmit _ _ ha => simp [hactive] at ha
  | firstByte _ _ b ha hi hw hc hb => omega
  | laterByte _ _ b ha hi hc hb =>
    obtain rfl : p = u.inst.index := by omega
    exact ⟨⟨ha, (Nat.min_eq_left hc).symm, rfl⟩, b, (if_pos hc).trans hb,
      .of_actions (acts := [.drw b, .rel]) (by simp)⟩
  | filler _ _ ha hi hc =>
    have hpast : ¬p < u.inst.cfg.cap := by omega
    have hstays : u.inst.index = min (p + 1) u.inst.cfg.cap := by omega
    exact ⟨⟨ha, hstays, rfl⟩, _, if_neg hpast,
      .of_actions (acts := [.drw u.inst.cfg.txFiller, .rel]) (by simp)⟩
  | fillerNoCell _ _ ha hi hw hc => omega

/-! ### The bytes of the read -/

/-- The `DR`s of a read that has already sent `p` bytes. -/
theorem EntriesEffect.sends_later_bytes {k n p : Nat} {m : Memory} {u w : Slave} {fill : List Byte}
    (h : EntriesEffect k u (List.replicate n (entryOf k (.dr false false) 0 fill)) w) (hread : ReadingAt m p u)
    (hp : 1 ≤ p) (hu : u.inst.Inv) :
    ∃ sent, Sends u w 0 sent ∧ sent.map some = (List.range' p n).map (byteSentAt u.inst.cfg m) := by
  induction n generalizing u p with
  | zero =>
    obtain rfl := entriesEffect_nil_iff.mp h
    exact ⟨[], .refl w, rfl⟩
  | succ n ih =>
    obtain ⟨v, hdr, hrest⟩ := entriesEffect_entryOf_cons_iff.mp h
    obtain ⟨hnext, b, hb, hsend⟩ := (hread.accepted ..).sends_later_byte hp hu hdr
    obtain ⟨sent, hsends, hsent⟩ := ih hrest hnext (Nat.le_add_left ..) (hdr.keeps_inv hu)
    have hcfg : v.inst.cfg = u.inst.cfg := hdr.cfg_eq
    have hbyte : byteSentAt u.inst.cfg m p = some b := hb
    exact ⟨b :: sent, hsend.of_accepted.trans hsends, by simp [List.range'_succ, hsent, hcfg, hbyte]⟩

/-- The `DR`s of a transaction that has just been opened: one `write`, unless there are none of them. -/
theorem EntriesEffect.sends_bytes {k n : Nat} {u w : Slave} {fill : List Byte}
    (h : EntriesEffect k u (List.replicate n (entryOf k (.dr false false) 0 fill)) w) (hu : u.inst.Inv)
    (ha : u.inst.active = true) (hindex : u.inst.index = 0) :
    ∃ sent, Sends u w (if n = 0 then 0 else 1) sent ∧
      sent.map some = (List.range n).map (byteSentAt u.inst.cfg (u.inst.buf.fill fill)) := by
  cases n with
  | zero =>
    obtain rfl := entriesEffect_nil_iff.mp h
    exact ⟨[], .refl w, rfl⟩
  | succ n =>
    obtain ⟨v, hdr, hrest⟩ := entriesEffect_entryOf_cons_iff.mp h
    obtain ⟨hread, b, hb, hsend⟩ := hdr.sends_first_byte hu ha hindex
    obtain ⟨sent, hsends, hsent⟩ := hrest.sends_later_bytes hread le_rfl (hdr.keeps_inv hu)
    have hcfg : v.inst.cfg = u.inst.cfg := hdr.cfg_eq
    have hbyte : byteSentAt u.inst.cfg (u.inst.buf.fill fill) 0 = some b := hb
    refine ⟨b :: sent, hsend.of_accepted.trans hsends, ?_⟩
    rw [List.range_eq_range', List.range'_succ, List.map_cons, List.map_cons, hsent, hcfg, hbyte]
    rfl

/-! ### The whole transaction -/

theorem dutifulEntry_of_mem_rtx (k : Nat) (a : SlaveAddr) (n : Nat) (fill : List Byte) :
    ∀ x ∈ rtx k a n fill, DutifulEntry k x := by
  intro x hx
  simp only [rtx, List.mem_append, List.mem_cons, List.mem_replicate, List.not_mem_nil, or_false] at hx
  rcases hx with (rfl | ⟨-, rfl⟩) | rfl
  all_goals exact dutifulEntry_entryOf ..

@[simp] theorem length_rtx (k : Nat) (a : SlaveAddr) (n : Nat) (fill : List Byte) : (rtx k a n fill).length = n + 2 := by
  simp [rtx]

/-- The `AM` leaves the buffer and sets `index` to 0; it and the `STOP` send nothing. -/
theorem EntriesEffect.sends_of_rtx {k n : Nat} {u v : Slave} {a : SlaveAddr} {fill : List Byte}
    (h : EntriesEffect k u (rtx k a n fill) v) (hu : u.inst.Inv) :
    ∃ sent, Sends u v (if n = 0 then 0 else 1) sent ∧
      sent.map some = (List.range n).map (byteSentAt u.inst.cfg (u.inst.buf.fill fill)) := by
  obtain ⟨last, hread, hclose⟩ := entriesEffect_append_iff.mp h
  obtain ⟨opened, ham, hdrs⟩ := entriesEffect_entryOf_cons_iff.mp hread
  obtain ⟨closed, hstop, hnil⟩ := entriesEffect_entryOf_cons_iff.mp hclose
  obtain rfl := entriesEffect_nil_iff.mp hnil
  obtain ⟨sent, hsends, hsent⟩ :=
    hdrs.sends_bytes (ham.keeps_inv hu) (by simp [ham.inst_of_am]) (by simp [ham.inst_of_am])
  have hall := (ham.sends_of_am.of_accepted.trans hsends).trans hstop.sends_of_stop.of_accepted
  exact ⟨sent, by simpa using hall, by simpa [ham.inst_of_am] using hsent⟩

/-- Settles O52: the entries of the transaction are all handled, and `EntriesEffect.sends_of_rtx` says what they send. -/
theorem readTransactionBytes : Obligations.ReadTransactionBytes := by
  intro s k u a n fill rest ⟨_, hinv⟩ hk hp
  have hu : u.inst.Inv := hinv u (List.mem_of_getElem? hk)
  obtain ⟨v, heffect⟩ := EntriesEffect.exists_of_dutiful hu (dutifulEntry_of_mem_rtx k a n fill)
  obtain ⟨t, hrun, hrest, hv⟩ := heffect.run hk hp
  obtain ⟨sent, hsends, hsent⟩ := heffect.sends_of_rtx hu
  exact ⟨t, v, sent, length_rtx k a n fill ▸ hrun, hrest, hv, hsends.writes_eq, hsends.sent_eq, hsent⟩

end Sys2Proof.Machine
end

section
/-! The Stop event (R135, R137): its three paths. -/

namespace Sys2Proof.Machine

/-- Settles O27: with bytes received the pending flush has a payload, and its path calls `read` and `end`; the other path
calls `end`. -/
theorem stopClosesTransaction : Obligations.StopClosesTransaction := by
  refine ⟨rfl, ?afterBytesReceived, ?otherwise⟩
  case afterBytesReceived =>
    intro s u hu ha hd hw hle hr he
    obtain ⟨bytes, hbytes, hlength, hcontent⟩ := Memory.payload_of_le hw hle
    exact ⟨_, bytes, (EventEffect.stopFlush bytes ha hd hr he hbytes).exec_eq hu, hlength, hcontent, rfl, by simp, by simp,
      rfl, rfl, rfl⟩
  case otherwise =>
    intro s u hu ha hd he
    exact ⟨_, (EventEffect.stopPlain ha hd he).exec_eq hu, rfl, by simp, rfl, rfl, rfl, rfl⟩

/-- Settles O28: the idle path of `STOP`. -/
theorem idleStopDoesNothing : Obligations.IdleStopDoesNothing := fun _ _ hu ha =>
  (EventEffect.idleStop ha).exec_eq hu

end Sys2Proof.Machine
end

section
/-!
The balance of `begin` and `end` (R138): what each event adds to it, and the pairing that every step therefore keeps.
-/

namespace Sys2Proof.Machine

/-! ### The calls of one event -/

/-- Only an `AM` calls `begin`, and it does so once (R105). -/
theorem EventEffect.countP_isBegin {k : Nat} {u v : Slave} {i : Instr} (h : EventEffect k u i v) :
    v.trace.countP Action.isBegin = u.trace.countP Action.isBegin + (isAm i).toNat := by
  obtain ⟨acts, htrace, hacts⟩ := h.actions
  rw [htrace, List.countP_append]
  congr 1
  cases hacts with
  | discardOv wcol => cases wcol <;> rfl
  | _ => rfl

/-- No event but a `STOP` calls `end` (R135). -/
theorem EventEffect.count_endCall_of_ne_stop {k : Nat} {u v : Slave} {i : Instr} (h : EventEffect k u i v)
    (hi : i ≠ .stop) : v.trace.count .endCall = u.trace.count .endCall := by
  obtain ⟨acts, htrace, hacts⟩ := h.actions
  rw [htrace, List.count_append, Nat.add_eq_left]
  cases hacts with
  | discardOv wcol => cases wcol <;> rfl
  | idleStop => exact absurd rfl hi
  | stopFlush bytes n => exact absurd rfl hi
  | stopPlain => exact absurd rfl hi
  | _ => rfl

/-- A `STOP` calls `end` once if it finds the transaction open (R135), and not while idle (R137). -/
theorem EventEffect.count_endCall_of_stop {k : Nat} {u v : Slave} (h : EventEffect k u .stop v) :
    v.trace.count .endCall = u.trace.count .endCall + u.inst.active.toNat := by
  cases h with
  | idleStop ha => simp [ha]
  | stopFlush bytes ha hd hr he hb => simp [ha]
  | stopPlain ha hd he => simp [ha]

/-- A DataByte leaves the phase as it is (R98). -/
theorem EventEffect.active_of_data {k : Nat} {u v : Slave} {i : Instr} (h : EventEffect k u i v) (hi : isData i = true) :
    v.inst.active = u.inst.active := by
  cases i with
  | col => cases hi
  | am addr => cases hi
  | dw => exact h.active_of_dw
  | dweOv wcol => rw [h.inst_of_dweOv]
  | dweWcol => rw [h.inst_of_dweWcol]
  | dr ov wcol => exact h.active_of_dr
  | stop => cases hi

/-! ### The balance -/

/-- R138 for one event: its calls and its phases, put into the balance, cancel but for a transaction cut short. -/
theorem EventEffect.beginEndBalance {k : Nat} {u v : Slave} {i : Instr} (h : EventEffect k u i v) :
    v.trace.countP Action.isBegin + u.trace.count .endCall + u.inst.active.toNat =
      u.trace.countP Action.isBegin + v.trace.count .endCall + v.inst.active.toNat +
        (if u.inst.active = true ∧ (i = .col ∨ isAm i = true) then 1 else 0) := by
  rw [h.countP_isBegin]
  cases i with
  | col =>
    rw [h.count_endCall_of_ne_stop nofun, h.inst_of_col]
    cases u.inst.active <;> simp [isAm]
  | am addr =>
    rw [h.count_endCall_of_ne_stop nofun, h.inst_of_am]
    cases u.inst.active <;> simp [isAm] <;> omega
  | stop =>
    rw [h.count_endCall_of_stop, h.inst_of_stop]
    simp [isAm, Nat.add_assoc]
  | _ =>
    rw [h.count_endCall_of_ne_stop nofun, h.active_of_data rfl]
    simp [isAm]

/-- Settles O44: the balance of the event on the instance that it is handled on. -/
theorem beginEndBalance : Obligations.BeginEndBalance := by
  intro i s t u v hu h hv
  obtain ⟨heffect, -⟩ := exec_next_current hu h hv
  exact heffect.beginEndBalance

/-! ### The pairing -/

theorem paired_iff {u : Slave} :
    u.Paired ↔ u.trace.count .endCall + u.inst.active.toNat ≤ u.trace.countP Action.isBegin := Iff.rfl

/-- By the balance, what an event adds to the `begin` calls covers what it adds to the `end` calls and the open transaction. -/
theorem EventEffect.keeps_paired {k : Nat} {u v : Slave} {i : Instr} (h : EventEffect k u i v) (hu : u.Paired) :
    v.Paired := by
  have hbalance := h.beginEndBalance
  rw [paired_iff] at hu ⊢
  omega

/-- A reset closes the transaction and calls nothing (R200). -/
theorem paired_resetSlave {k : Nat} {u : Slave} (hu : u.Paired) : (resetSlave k u).Paired :=
  (Nat.le_add_right _ _).trans hu

theorem SlaveStep.keeps_paired {k : Nat} {u v : Slave} (h : SlaveStep k u v) (hu : u.Paired) : v.Paired := by
  cases h with
  | reset => exact paired_resetSlave hu
  | event he => exact he.keeps_paired hu

theorem paired_afterReset (k : Nat) : (Slave.afterReset k).Paired := le_rfl

/-- Settles O46: at reset nothing was called and no transaction is open, and each input of an instance keeps the pairing. -/
theorem stepKeepsBeginEndPairing : Obligations.StepKeepsBeginEndPairing := by
  refine ⟨fun u hu => ?atReset, fun s t hs h => step_keeps SlaveStep.keeps_paired hs h⟩
  case atReset =>
    obtain ⟨k, hk⟩ := List.mem_iff_getElem?.mp hu
    obtain rfl := getElem?_reset_slaves hk
    exact paired_afterReset k

end Sys2Proof.Machine
end

section
/-!
A well-formed sequence `AddressMatch, DataByte*, Stop` (R98, R138): the `AM` calls `begin`, the data events only `read` and `write`
while the transaction stays open, and the `STOP` ends with `end`.
-/

namespace Sys2Proof.Machine

/-! ### The callbacks of one event -/

/-- R160: each path of an event calls what the table gives for the registers at entry. -/
theorem EventEffect.callbacksOf_eq {k : Nat} {u v : Slave} {i : Instr} (h : EventEffect k u i v) :
    callbacksOf v.trace = callbacksOf u.trace ++ expectedCallbacks i u.inst := by
  cases h with
  | discardOv wcol => cases wcol <;> simp [callbacksOf, Action.callback?, expectedCallbacks]
  | _ => simp [callbacksOf, List.filterMap_cons, Action.callback?, expectedCallbacks, *]

/-- R160: the callbacks of a DataByte. -/
theorem mem_expectedCallbacks_of_data {i : Instr} {inst : Instance} (hi : isData i = true) :
    ∀ c ∈ expectedCallbacks i inst, c = .read ∨ c = .write := by
  cases i with
  | col => cases hi
  | am addr => cases hi
  | dw =>
    simp only [expectedCallbacks]
    split <;> simp
  | dweOv wcol => nofun
  | dweWcol => nofun
  | dr ov wcol =>
    simp only [expectedCallbacks]
    split <;> simp
  | stop => cases hi

/-- The callbacks of a `STOP` in an open transaction: `end` is the last, and before it there may be a `read` (R135). -/
theorem expectedCallbacks_stop {inst : Instance} (ha : inst.active = true) :
    ∃ flush, expectedCallbacks .stop inst = flush ++ [.endTx] ∧ ∀ c ∈ flush, c = .read ∨ c = .write := by
  simp only [expectedCallbacks, ha, if_true]
  split
  · exact ⟨[.read], rfl, by simp⟩
  · exact ⟨[], rfl, nofun⟩

/-! ### The data events of the sequence -/

/-- From `u` to `v` the phase is the same and no callback but `read` and `write` was invoked. -/
structure OnlyTransfers (u v : Slave) : Prop where
  active_eq : v.inst.active = u.inst.active
  callbacks : ∃ cs, callbacksOf v.trace = callbacksOf u.trace ++ cs ∧ ∀ c ∈ cs, c = .read ∨ c = .write

theorem OnlyTransfers.refl (u : Slave) : OnlyTransfers u u := ⟨rfl, [], by simp, nofun⟩

theorem OnlyTransfers.trans {u v w : Slave} (huv : OnlyTransfers u v) (hvw : OnlyTransfers v w) : OnlyTransfers u w := by
  obtain ⟨hactive, cs, hcs, hmem⟩ := huv
  obtain ⟨hactive', cs', hcs', hmem'⟩ := hvw
  refine ⟨hactive'.trans hactive, cs ++ cs', by rw [hcs', hcs, List.append_assoc], ?_⟩
  exact List.forall_mem_append.mpr ⟨hmem, hmem'⟩

/-- Accepting an event is no callback and leaves the phase as it is. -/
theorem OnlyTransfers.of_accepted {stretch : Bool} {e : Presented} {u v : Slave}
    (h : OnlyTransfers (acceptEvent stretch e u) v) : OnlyTransfers u v := ⟨h.active_eq, h.callbacks⟩

theorem EventEffect.onlyTransfers_of_data {k : Nat} {u v : Slave} {i : Instr} (h : EventEffect k u i v)
    (hi : isData i = true) : OnlyTransfers u v :=
  ⟨h.active_of_data hi, _, h.callbacksOf_eq, mem_expectedCallbacks_of_data hi⟩

theorem EntriesEffect.onlyTransfers {k : Nat} {u v : Slave} {xs : List Input} (h : EntriesEffect k u xs v)
    (hxs : ∀ x ∈ xs, onlyDataAt k x = true) : OnlyTransfers u v := by
  induction h with
  | nil u => exact .refl u
  | cons hi h _ ih =>
    obtain ⟨hx, hrest⟩ := List.forall_mem_cons.mp hxs
    exact (h.onlyTransfers_of_data (isData_of_onlyDataAt hx hi)).of_accepted.trans (ih hrest)

/-! ### The whole sequence -/

theorem exists_of_isAm {i : Instr} (h : isAm i = true) : ∃ addr, i = .am addr := by
  cases i with
  | am addr => exact ⟨addr, rfl⟩
  | _ => cases h

/-- What `wellFormedSequence` accepts is `AddressMatch, DataByte*, Stop` (R98). -/
theorem exists_of_wellFormedSequence {events : List Instr} (h : wellFormedSequence events = true) :
    ∃ addr data, events = .am addr :: (data ++ [.stop]) ∧ ∀ i ∈ data, isData i = true := by
  cases events with
  | nil => cases h
  | cons i rest =>
    obtain ⟨⟨ham, hlast⟩, hdata⟩ :
        (isAm i = true ∧ rest.getLast? = some .stop) ∧ ∀ j ∈ rest.dropLast, isData j = true := by
      simpa [wellFormedSequence] using h
    obtain ⟨addr, rfl⟩ := exists_of_isAm ham
    obtain ⟨data, rfl⟩ := List.getLast?_eq_some_iff.mp hlast
    exact ⟨addr, data, rfl, by simpa using hdata⟩

/-- The entry for instance `k` of the one event `x.2`, which holds the clock if `x.1` says so (R142). -/
def singleEntry (k : Nat) (x : Bool × Presented) : Input := .entry k x.1 x.2 none

theorem EntriesEffect.of_singleEntry_cons {k : Nat} {u w : Slave} {x : Bool × Presented} {i : Instr} {xs : List Input}
    (h : EntriesEffect k u (singleEntry k x :: xs) w) (hi : decode x.2.word = .ok i) :
    ∃ v, EventEffect k (acceptEvent x.1 x.2 u) i v ∧ EntriesEffect k v xs w := by
  cases h with
  | cons hi' h hrest =>
    cases hi.symm.trans hi'
    exact ⟨_, h, hrest⟩

/-- Each entry presents one of the events. -/
theorem exists_event_of_mem {entries : List (Bool × Presented)} {events : List Instr}
    (hwords : entries.map (fun x => decode x.2.word) = events.map Except.ok) {x : Bool × Presented} (hx : x ∈ entries) :
    ∃ i ∈ events, decode x.2.word = .ok i := by
  have hmem : decode x.2.word ∈ events.map Except.ok := hwords ▸ List.mem_map_of_mem hx
  obtain ⟨i, hi, heq⟩ := List.mem_map.mp hmem
  exact ⟨i, hi, heq.symm⟩

theorem onlyDataAt_singleEntry {k : Nat} {x : Bool × Presented} {i : Instr} (hi : decode x.2.word = .ok i)
    (hdata : isData i = true) : onlyDataAt k (singleEntry k x) = true := by
  simp [onlyDataAt, singleEntry, Presented.decodesTo, hi, hdata]

/-- R138 for the instance: the `AM`, the data events and the `STOP` one after the other, each with the callbacks it adds. -/
theorem EntriesEffect.of_wellFormedSequence {k : Nat} {u v : Slave} {events : List Instr}
    {entries : List (Bool × Presented)} (h : EntriesEffect k u (entries.map (singleEntry k)) v)
    (hwf : wellFormedSequence events = true)
    (hwords : entries.map (fun x => decode x.2.word) = events.map Except.ok) :
    v.inst.active = false ∧ ∃ between,
      callbacksOf v.trace = callbacksOf u.trace ++ .begin :: between ++ [.endTx] ∧ ∀ c ∈ between, c = .read ∨ c = .write := by
  obtain ⟨addr, data, rfl, hdata⟩ := exists_of_wellFormedSequence hwf
  obtain ⟨first, others, rfl, hfirst, hothers⟩ := List.map_eq_cons_iff.mp hwords
  rw [List.map_append] at hothers
  obtain ⟨middle, lasts, rfl, hmiddle, hlasts⟩ := List.map_eq_append_iff.mp hothers
  obtain ⟨last, rfl, hlast⟩ := List.map_eq_singleton_iff.mp hlasts
  obtain ⟨opened, ham, hrest⟩ := h.of_singleEntry_cons hfirst
  rw [List.map_append] at hrest
  obtain ⟨moved, hmoves, hclose⟩ := entriesEffect_append_iff.mp hrest
  obtain ⟨closed, hstop, hnil⟩ := hclose.of_singleEntry_cons hlast
  obtain rfl := entriesEffect_nil_iff.mp hnil
  obtain ⟨hactive, cs, hcs, htransfers⟩ : OnlyTransfers opened moved := by
    refine hmoves.onlyTransfers (List.forall_mem_map.mpr fun x hx => ?_)
    obtain ⟨i, hi, hxi⟩ := exists_event_of_mem hmiddle hx
    exact onlyDataAt_singleEntry hxi (hdata i hi)
  have hopen : moved.inst.active = true := by simp [hactive, ham.inst_of_am]
  obtain ⟨flush, hflush, hread⟩ := expectedCallbacks_stop hopen
  refine ⟨by simp [hstop.inst_of_stop], cs ++ flush, ?_, List.forall_mem_append.mpr ⟨htransfers, hread⟩⟩
  calc callbacksOf v.trace = callbacksOf moved.trace ++ (flush ++ [.endTx]) := hflush ▸ hstop.callbacksOf_eq
    _ = callbacksOf opened.trace ++ cs ++ (flush ++ [.endTx]) := by rw [hcs]
    _ = callbacksOf u.trace ++ [.begin] ++ cs ++ (flush ++ [.endTx]) := congrArg (· ++ cs ++ _) ham.callbacksOf_eq
    _ = callbacksOf u.trace ++ .begin :: (cs ++ flush) ++ [.endTx] := by simp

/-- Settles O49: the entries of the sequence are all handled, and `EntriesEffect.of_wellFormedSequence` says what they call. -/
theorem beginAndEndOncePerTransaction : Obligations.BeginAndEndOncePerTransaction := by
  intro s k u events entries rest ⟨_, hinv⟩ hk hwf hwords happ hp
  have hdutiful : ∀ x ∈ entries.map (singleEntry k), DutifulEntry k x := by
    refine List.forall_mem_map.mpr fun x hx => ?_
    obtain ⟨i, -, hi⟩ := exists_event_of_mem hwords hx
    exact .mk hi (happ x hx)
  obtain ⟨v, heffect⟩ := EntriesEffect.exists_of_dutiful (hinv u (List.mem_of_getElem? hk)) hdutiful
  obtain ⟨t, hrun, hrest, hv⟩ := heffect.run hk hp
  have hlength : (entries.map (singleEntry k)).length = events.length := by
    simpa using congrArg List.length hwords
  obtain ⟨hidle, between, hcallbacks, hbetween⟩ := heffect.of_wellFormedSequence hwf hwords
  exact ⟨t, v, between, hlength ▸ hrun, hrest, hv, hidle, hcallbacks, hbetween⟩

end Sys2Proof.Machine
end

section
/-! The clock stretch (R140, R102): where the release stands among an event's actions, and the clock after the event. -/

namespace Sys2Proof.Machine

/-- R140: each action list holds one release. -/
theorem EventActions.count_rel {i : Instr} {acts : List Action} (h : EventActions i acts) : acts.count .rel = 1 := by
  cases h with
  | discardOv wcol => cases wcol <;> rfl
  | _ => rfl

/-- R102: a Collision releases the clock before it does anything else. -/
theorem EventActions.head?_of_col {acts : List Action} (h : EventActions .col acts) : acts.head? = some .rel := by
  cases h
  rfl

/-- R140: every other event holds the clock until all else is done. -/
theorem EventActions.getLast?_of_ne_col {i : Instr} {acts : List Action} (h : EventActions i acts) (hi : i ≠ .col) :
    acts.getLast? = some .rel := by
  cases h with
  | collision => exact absurd rfl hi
  | discardOv wcol => exact List.getLast?_concat
  | _ => rfl

/-- No path of an event takes the clock again after its release (R142). -/
theorem EventEffect.sclHold_eq_false {k : Nat} {u v : Slave} {i : Instr} (h : EventEffect k u i v) :
    v.adapter.sclHold = false := by
  cases h <;> rfl

/-- Settles O37: the release is counted and placed in the action list of the event. -/
theorem clockReleasedExactlyOnce : Obligations.ClockReleasedExactlyOnce := by
  intro i s t u v hu h hv
  obtain ⟨heffect, -⟩ := exec_next_current hu h hv
  obtain ⟨acts, htrace, hacts⟩ := heffect.actions
  refine ⟨heffect.sclHold_eq_false, acts, htrace, hacts.count_rel, ?first, hacts.getLast?_of_ne_col⟩
  case first =>
    rintro rfl
    exact hacts.head?_of_col

end Sys2Proof.Machine
end

section
/-! The inputs that are no event: a reset, and none (R35, R200). -/

namespace Sys2Proof.Machine

theorem step_of_waiting {s : State} (hp : s.pending = []) : step s = .next s := by
  simp only [step, fetch, hp]

theorem step_of_reset {s : State} {k : Nat} {rest : List Input} {u : Slave} (hp : s.pending = .reset k :: rest)
    (hu : s.slaves[k]? = some u) :
    step s = .next { s with slaves := s.slaves.set k (resetSlave k u), pending := rest } := by
  simp only [step, fetch, hp, fetchReset, hu]

/-- Settles O9: an empty queue is the waiting case of `fetch`. -/
theorem engineWaitsForEvents : Obligations.EngineWaitsForEvents := fun _ => step_of_waiting

/-- Settles O13: `resetSlave` writes the registers and draws a buffer in canonical form, and nothing else. -/
theorem resetInputLoadsResetValues : Obligations.ResetInputLoadsResetValues := fun _ k _ u hp hu =>
  ⟨resetSlave k u, step_of_reset hp hu, rfl, rfl, rfl, rfl, Memory.wf_afterReset k u.draws u.inst.cfg.cap, rfl, rfl, rfl,
    rfl⟩

end Sys2Proof.Machine
end

section
/-! What an event leaves alone: the rest of the machine, the configuration, the application, and the adapter's conditions. -/

namespace Sys2Proof.Machine

/-- No path of an event writes the application's answers, so the lemmas of each operation close every case. -/
theorem EventEffect.app_eq {k : Nat} {u v : Slave} {i : Instr} (h : EventEffect k u i v) : v.app = u.app := by
  cases h <;> simp

/-- Settles O32: the event replaces the current instance, and each of its paths adds to the trace and to the calls. -/
theorem eventTouchesOneInstance : Obligations.EventTouchesOneInstance := by
  intro i s t h
  obtain ⟨u, v, hu, heffect, rfl⟩ := exec_next h
  obtain ⟨acts, htrace, -⟩ := heffect.actions
  obtain ⟨views, hcalls⟩ := heffect.calls_prefix
  exact ⟨rfl, rfl, List.length_set, fun k hk => putCurrent_other s v hk, u, v, hu, current?_putCurrent hu v,
    heffect.cfg_eq, heffect.app_eq, ⟨acts, htrace⟩, views, hcalls.symm⟩

/-- R103: no event clears the bus-collision condition, not even the Collision. -/
theorem EventEffect.busCollision_eq {k : Nat} {u v : Slave} {i : Instr} (h : EventEffect k u i v) :
    v.adapter.busCollision = u.adapter.busCollision := by
  cases h <;> simp

/-- R135, R137: a `STOP` moves no byte. -/
theorem EventEffect.dr_of_stop {k : Nat} {u v : Slave} (h : EventEffect k u .stop v) : v.adapter.dr = u.adapter.dr := by
  cases h <;> rfl

/-- Settles O36: of the paths only the two of `DWE` clear a condition, and they clear those they carry. -/
theorem conditionBitsFrame : Obligations.ConditionBitsFrame := by
  intro i s t u v hu h hv
  obtain ⟨heffect, -⟩ := exec_next_current hu h hv
  refine ⟨heffect.busCollision_eq, ?overflow, ?writeCollision, ?data⟩
  case overflow => cases heffect <;> simp
  case writeCollision =>
    cases heffect with
    | discardOv wcol => cases wcol <;> simp
    | _ => simp
  case data =>
    rintro rfl
    exact heffect.dr_of_stop

end Sys2Proof.Machine
end

section
/-!
The callbacks of an event (R156, R160): which are called, what they see, and what an event leaves of an idle instance, which
calls none.
-/

namespace Sys2Proof.Machine

/-- Settles O40: the table of R160 holds of each path of the event. -/
theorem callbacksFollowTable : Obligations.CallbacksFollowTable := by
  intro i s t u v hu h hv
  obtain ⟨heffect, -⟩ := exec_next_current hu h hv
  exact heffect.callbacksOf_eq

/-- From `u` to `v` every call saw the registers as R156 says, and the clock as held as in `u` (R144). -/
def CallsConsistent (u v : Slave) : Prop :=
  ∃ views, v.calls = u.calls ++ views ∧ ∀ c ∈ views, c.consistent = true ∧ c.sclHold = u.adapter.sclHold

theorem CallsConsistent.of_no_call {u v : Slave} (h : v.calls = u.calls) : CallsConsistent u v :=
  ⟨[], by simp [h], nofun⟩

theorem CallsConsistent.of_one_call {u v : Slave} {c : CallView} (h : v.calls = u.calls ++ [c])
    (hc : c.consistent = true) (hscl : c.sclHold = u.adapter.sclHold) : CallsConsistent u v :=
  ⟨[c], h, by simp [hc, hscl]⟩

/-- R156: the registers a path has written by the time of its call are those of the table. -/
theorem EventEffect.callsConsistent {k : Nat} {u v : Slave} {i : Instr} (h : EventEffect k u i v) (hu : u.inst.Inv) :
    CallsConsistent u v := by
  have hcap := hu.cap_pos
  have hle := hu.index_le
  cases h with
  | addressMatch addr hb => exact .of_one_call rfl rfl rfl
  | flush bytes ha hi hp hs hr hb => exact .of_one_call rfl (by simp [CallView.consistent, ha, hi, hb, hcap]) rfl
  | firstByte ov wcol b ha hi hw hc hb => exact .of_one_call rfl (by simp [CallView.consistent, ha, hi]) rfl
  | fillerNoCell ov wcol ha hi hw hc => exact absurd hc (by omega)
  | stopFlush bytes ha hd hr he hb =>
    obtain ⟨hpos, -⟩ := hu.pendingFlush ha hd
    refine ⟨[⟨.readCall bytes u.inst.index, u.inst, u.adapter.sclHold⟩, ⟨.endCall, u.inst, u.adapter.sclHold⟩],
      by simp, ?_⟩
    simp [CallView.consistent, ha, hd, hb, hle, hpos]
  | stopPlain ha hd he => exact .of_one_call rfl (by simp [CallView.consistent, ha, hle]) rfl
  | _ => exact .of_no_call (by simp)

/-- Settles O41: the invariant of the current instance bounds the length of each `read`. -/
theorem callbacksSeeConsistentState : Obligations.CallbacksSeeConsistentState := by
  intro i s t u v hs hu h hv
  obtain ⟨heffect, -⟩ := exec_next_current hu h hv
  exact heffect.callsConsistent (hs.2 u (current?_mem hu))

/-! ### The idle instance -/

/-- R91: while idle every event but `AM` has a path, whatever the application does. -/
theorem EventEffect.exists_of_idle {i : Instr} (k : Nat) {u : Slave} (ha : u.inst.active = false) (hi : isAm i = false) :
    ∃ v, EventEffect k u i v := by
  cases i with
  | col => exact ⟨_, .collision⟩
  | am addr => cases hi
  | dw => exact ⟨_, .idleReceive ha⟩
  | dweOv wcol => exact ⟨_, .discardOv wcol⟩
  | dweWcol => exact ⟨_, .discardWcol⟩
  | dr ov wcol => exact ⟨_, .idleTransmit ov wcol ha⟩
  | stop => exact ⟨_, .idleStop ha⟩

/-- R203: while idle no event but `AM` writes a register; `COL` and `STOP` clear an `active` that is clear. -/
theorem EventEffect.inst_of_idle {k : Nat} {u v : Slave} {i : Instr} (h : EventEffect k u i v)
    (hidle : u.inst.active = false) (hi : isAm i = false) : v.inst = u.inst := by
  cases h with
  | collision => simp [← hidle]
  | addressMatch addr hb => cases hi
  | discardOv wcol => simp
  | discardWcol => rfl
  | idleReceive ha => rfl
  | idleTransmit ov wcol ha => rfl
  | idleStop ha => rfl
  | _ => exact absurd ‹u.inst.active = true› (by simp [hidle])

/-- Settles O42: the idle path of the event writes no register and is silent. -/
theorem idleInstanceIgnoresAllButAm : Obligations.IdleInstanceIgnoresAllButAm := by
  intro i s u hu hidle hi
  obtain ⟨v, heffect⟩ := EventEffect.exists_of_idle s.cur hidle hi
  have hsilent := heffect.silent_of_idle hidle hi
  exact ⟨v, heffect.exec_eq hu, heffect.inst_of_idle hidle hi, hsilent.calls_eq, hsilent.callbacks_eq⟩

end Sys2Proof.Machine
end

section
/-!
A callback that does not keep its duties (R180, R182, R215, R216): every call site of R160 is a call with the rest of the event
behind it, and what is behind a call that does not return is not run.
-/

namespace Sys2Proof.Machine

theorem andThen_assoc {α β γ : Type} (r : Result α) (f : α → Result β) (g : β → Result γ) :
    andThen (andThen r f) g = andThen r fun a => andThen (f a) g := by
  cases r <;> rfl

/-- The procedure `r` is the callback `c`, issued on the instance `w` with the answer `how`, and whatever follows it. -/
def StartsWithCall (c : Callback) (how : CallEnd) (w : Slave) (r : Result Slave) : Prop :=
  ∃ a f, r = andThen (callBack c how a w) f

theorem StartsWithCall.followedBy {c : Callback} {how : CallEnd} {w : Slave} {r : Result Slave}
    (h : StartsWithCall c how w r) (g : Slave → Result Slave) : StartsWithCall c how w (andThen r g) := by
  obtain ⟨a, f, rfl⟩ := h
  exact ⟨a, _, andThen_assoc ..⟩

theorem startsWithCall_callBack (c : Callback) (how : CallEnd) (a : Action) (w : Slave) :
    StartsWithCall c how w (callBack c how a w) :=
  ⟨a, .next, by cases how <;> rfl⟩

theorem startsWithCall_callRead {n : Nat} {w : Slave} (hw : w.inst.buf.wf w.inst.cfg.cap = true)
    (hn : n ≤ w.inst.cfg.cap) : StartsWithCall .read w.app.onRead w (callRead n w) := by
  obtain ⟨bytes, hbytes, -⟩ := Memory.payload_of_le hw hn
  simpa only [callRead, hbytes] using startsWithCall_callBack _ _ (.readCall bytes n) w

/-- R159, R180, R182: the event stops at its call, with the instance as it stands there. -/
theorem StartsWithCall.stops {c : Callback} {how : CallEnd} {w u : Slave} {s : State} {i : Instr} {stuck : Slave → Prop}
    (h : StartsWithCall c how w (doEvent i s.cur u)) (hu : current? s = some u) (hw : stuck w) :
    how.Stops c (exec i s) stuck := by
  obtain ⟨a, f, hcall⟩ := h
  rw [exec_eq_onCurrent, onCurrent_of_current? _ hu, hcall]
  cases how with
  | returns => trivial
  | neverReturns => exact ⟨w, rfl, hw⟩
  | reenters => rfl
  | oversteps => rfl

/-! ### The call sites (R160) -/

/-- The `begin` of an `AM` (R105). -/
theorem startsWithCall_am (addr : SlaveAddr) (k : Nat) (u : Slave) :
    StartsWithCall .begin u.app.onBegin (setActive true (setDirection .none (setIndex 0 (drRead k u))))
      (doEvent (.am addr) k u) :=
  (startsWithCall_callBack ..).followedBy _

/-- The `read` of a `DW` that finds the buffer full, under `TriggerFlush` (R115). -/
theorem startsWithCall_dw (k : Nat) {u : Slave} (ha : u.inst.active = true) (hw : u.inst.buf.wf u.inst.cfg.cap = true)
    (hi : u.inst.index = u.inst.cfg.cap) (hp : u.inst.cfg.policy = .triggerFlush) :
    StartsWithCall .read u.app.onRead (setDirection .write (drRead k u)) (doEvent .dw k u) := by
  have hread : StartsWithCall .read u.app.onRead (setDirection .write (drRead k u))
      (callRead u.inst.cfg.cap (setDirection .write (drRead k u))) := startsWithCall_callRead hw le_rfl
  simpa [doEvent, doDataWrite, ha, doReceive, hi, overflowArbiter, hp] using hread.followedBy _

/-- The `write` of the first `DR` (R126). -/
theorem startsWithCall_dr (ov wcol : Bool) (k : Nat) {u : Slave} (ha : u.inst.active = true) (hi : u.inst.index = 0) :
    StartsWithCall .write u.app.onWrite (setDirection .read u) (doEvent (.dr ov wcol) k u) := by
  have hwrite : StartsWithCall .write u.app.onWrite (setDirection .read u) (callWrite (setDirection .read u)) :=
    (startsWithCall_callBack ..).followedBy _
  simpa [doEvent, doDataRead, ha, doTransmit, hi] using hwrite.followedBy _

/-- The `read` of a `STOP` with a flush pending (R135). -/
theorem startsWithCall_stop_read (k : Nat) {u : Slave} (ha : u.inst.active = true) (hd : u.inst.direction = .write)
    (hw : u.inst.buf.wf u.inst.cfg.cap = true) (hi : u.inst.index ≤ u.inst.cfg.cap) :
    StartsWithCall .read u.app.onRead u (doEvent .stop k u) := by
  simpa [doEvent, doStopEvent, ha, doStop, hd] using (startsWithCall_callRead hw hi).followedBy _

/-- The `end` of a `STOP`, behind a `read` that has returned (R135). -/
theorem startsWithCall_stop_end_of_flush (k : Nat) {u : Slave} {bytes : List Byte} (ha : u.inst.active = true)
    (hd : u.inst.direction = .write) (hb : u.inst.buf.payload u.inst.index = some bytes) (hr : u.app.onRead = .returns) :
    StartsWithCall .endTx u.app.onEnd (logCall (.readCall bytes u.inst.index) u) (doEvent .stop k u) := by
  have hend : StartsWithCall .endTx u.app.onEnd (logCall (.readCall bytes u.inst.index) u)
      (callEnd (logCall (.readCall bytes u.inst.index) u)) := startsWithCall_callBack ..
  have hread : callRead u.inst.index u = .next (logCall (.readCall bytes u.inst.index) u) :=
    callRead_next_iff.mpr ⟨bytes, hb, hr, rfl⟩
  simpa [doEvent, doStopEvent, ha, doStop, hd, hread] using hend.followedBy _

/-- The `end` of a `STOP` with nothing to flush (R135). -/
theorem startsWithCall_stop_end (k : Nat) {u : Slave} (ha : u.inst.active = true) (hd : u.inst.direction ≠ .write) :
    StartsWithCall .endTx u.app.onEnd u (doEvent .stop k u) := by
  have hend : StartsWithCall .endTx u.app.onEnd u (callEnd u) := startsWithCall_callBack ..
  simpa [doEvent, doStopEvent, ha, doStop, hd] using hend.followedBy _

/-- Settles O31: each call site in turn, with the instance as the earlier actions left it. -/
theorem undutifulCallbacksStopTheRun : Obligations.UndutifulCallbacksStopTheRun := by
  intro s u hu
  refine ⟨?beginOfAm, ?readOfDw, ?writeOfDr, ?readOfStop, ?endAfterRead, ?endAlone⟩
  case beginOfAm =>
    intro addr
    exact (startsWithCall_am addr s.cur u).stops hu ⟨rfl, rfl, rfl, rfl, rfl⟩
  case readOfDw =>
    intro ha hw hi hp
    exact (startsWithCall_dw s.cur ha hw hi hp).stops hu ⟨rfl, rfl, rfl, rfl, rfl⟩
  case writeOfDr =>
    intro ov wcol ha hi
    exact (startsWithCall_dr ov wcol s.cur ha hi).stops hu rfl
  case readOfStop =>
    intro ha hd hw hi
    exact (startsWithCall_stop_read s.cur ha hd hw hi).stops hu rfl
  case endAfterRead =>
    intro ha hd hw hi hr
    obtain ⟨bytes, hb, -⟩ := Memory.payload_of_le hw hi
    exact (startsWithCall_stop_end_of_flush s.cur ha hd hb hr).stops hu ⟨bytes, hb, rfl, rfl, rfl, rfl⟩
  case endAlone =>
    intro ha hd
    exact (startsWithCall_stop_end s.cur ha hd).stops hu rfl

end Sys2Proof.Machine
end

section
/-!
A step that is stuck in a callback (R180, R215): the transaction is open, and the clock as the acceptance of the event left it
(R144).
-/

namespace Sys2Proof.Machine

/-- At every call site the clock is as held as it was when the event was accepted (R144). -/
theorem StuckAt.sclHold_eq {k : Nat} {u v : Slave} {i : Instr} {c : Callback} (h : StuckAt k u i c v) :
    v.adapter.sclHold = u.adapter.sclHold := by
  cases h <;> rfl

/-- Every call site lies in an open transaction; an `AM` opens it before `begin` (R105). -/
theorem StuckAt.active {k : Nat} {u v : Slave} {i : Instr} {c : Callback} (h : StuckAt k u i c v) :
    v.inst.active = true := by
  cases h with
  | inBegin addr hn => rfl
  | _ => assumption

theorem StuckAt.app_eq {k : Nat} {u v : Slave} {i : Instr} {c : Callback} (h : StuckAt k u i c v) : v.app = u.app := by
  cases h <;> rfl

/-- The actions before a call: the data register read or the earlier callback, and no release (R140). -/
theorem StuckAt.actions {k : Nat} {u v : Slave} {i : Instr} {c : Callback} (h : StuckAt k u i c v) :
    ∃ acts, v.trace = u.trace ++ acts ∧ .rel ∉ acts := by
  cases h with
  | inBegin addr hn => exact ⟨[.drr], rfl, by simp⟩
  | inFlush ha hi hp hn => exact ⟨[.drr], rfl, by simp⟩
  | inEndAfterRead bytes ha hd hb hn => exact ⟨[.readCall bytes u.inst.index], rfl, by simp⟩
  | _ => exact ⟨[], by simp, nofun⟩

/-- Settles O60: the stuck event is the one accepted from the head of the queue, and it is stuck at one of its call sites. -/
theorem stuckCallbackHoldsClock : Obligations.StuckCallbackHoldsClock := by
  intro s c v h
  obtain ⟨k, st, e, co, rest, u, i, hp, hu, -, -, hexec⟩ := step_fault h
  obtain ⟨w, hw, hstuck⟩ := exec_stuck hexec
  obtain rfl : acceptEvent st e u = w := Option.some.inj ((current?_acceptInto hu).symm.trans hw)
  obtain ⟨acts, htrace, hrel⟩ := hstuck.actions
  exact ⟨k, st, e, co, rest, u, acts, hp, hu, hstuck.sclHold_eq, hstuck.active, hstuck.app_eq, htrace, hrel⟩

end Sys2Proof.Machine
end

section
/-! Events of different instances (R190, R191): a step is its event's effect on one instance, whatever the others hold. -/

namespace Sys2Proof.Machine

/-- A step on an entry of one event, as that event's effect on the instance it is for (R60, R190). -/
theorem step_single_entry_iff {s t : State} {k : Nat} {stretch : Bool} {e : Presented} {rest : List Input}
    (hp : s.pending = .entry k stretch e none :: rest) :
    step s = .next t ↔ ∃ u i v, s.slaves[k]? = some u ∧ decode e.word = .ok i ∧
      EventEffect k (acceptEvent stretch e u) i v ∧ t = ⟨s.slaves.set k v, k, rest⟩ := by
  constructor
  · intro h
    obtain ⟨_, u, v, hu, heffect, hset⟩ := step_input hp h
    cases heffect with
    | event hi heffect =>
      have hcur := current?_acceptInto (stretch := stretch) (e := e) (rest := rest) hu
      rw [step_of_single_entry hp hu hi] at h
      cases h.symm.trans (heffect.exec_eq hcur)
      exact ⟨u, _, v, hu, hi, heffect, by simp [putCurrent, acceptInto]⟩
  · rintro ⟨u, i, v, hu, hi, heffect, rfl⟩
    rw [step_of_single_entry hp hu hi, heffect.exec_eq (current?_acceptInto hu)]
    simp [putCurrent, acceptInto]

/-- Two steps on entries of one event each, for different instances: each instance meets its own event as it stood before. -/
theorem run_two_entries_iff {s t : State} {k l : Nat} {stk stl : Bool} {e f : Presented} {rest : List Input} (hkl : k ≠ l)
    (hp : s.pending = .entry k stk e none :: .entry l stl f none :: rest) :
    core.run 2 s = .next t ↔ ∃ u i v u' j v',
      (s.slaves[k]? = some u ∧ decode e.word = .ok i ∧ EventEffect k (acceptEvent stk e u) i v) ∧
      (s.slaves[l]? = some u' ∧ decode f.word = .ok j ∧ EventEffect l (acceptEvent stl f u') j v') ∧
      t = ⟨(s.slaves.set k v).set l v', l, rest⟩ := by
  simp only [core_run_succ, core_run_zero, step_single_entry_iff hp]
  constructor
  · rintro ⟨_, ⟨u, i, v, hu, hi, hv, rfl⟩, _, hstep, rfl⟩
    obtain ⟨u', j, v', hu', hj, hv', rfl⟩ := (step_single_entry_iff rfl).mp hstep
    rw [List.getElem?_set_ne hkl] at hu'
    exact ⟨u, i, v, u', j, v', ⟨hu, hi, hv⟩, ⟨hu', hj, hv'⟩, rfl⟩
  · rintro ⟨u, i, v, u', j, v', ⟨hu, hi, hv⟩, ⟨hu', hj, hv'⟩, rfl⟩
    refine ⟨_, ⟨u, i, v, hu, hi, hv, rfl⟩, _, (step_single_entry_iff rfl).mpr ⟨u', j, v', ?_, hj, hv', rfl⟩, rfl⟩
    rwa [List.getElem?_set_ne hkl]

/-- Settles O54: the two effects are the same in either order, and the two places they are written to are different. -/
theorem instancesAreIndependent : Obligations.InstancesAreIndependent := by
  intro s t k l stk stl e f rest hkl hp hrun
  obtain ⟨u, i, v, u', j, v', hfirst, hsecond, rfl⟩ := (run_two_entries_iff hkl hp).mp hrun
  exact ⟨_, (run_two_entries_iff hkl.symm rfl).mpr ⟨u', j, v', u, i, v, hsecond, hfirst, rfl⟩,
    List.set_comm v' v hkl.symm, rfl⟩

end Sys2Proof.Machine
end

section
/-!
The error conditions X1 to X5 (R171 to R175): the cause of each, read off the event and the registers, and what the event does
for it and for no other cause.
-/

namespace Sys2Proof.Machine

/-! ### The causes -/

theorem fullWhileActive_iff {i : Instance} : fullWhileActive i = true ↔ i.active = true ∧ i.index = i.cfg.cap := by
  simp [fullWhileActive]

theorem busCollision_mem_iff {i : Instr} {inst : Instance} : .busCollision ∈ conditionsMet i inst ↔ i = .col := by
  cases i with
  | dweOv wcol => cases wcol <;> simp [conditionsMet]
  | _ => simp [conditionsMet]

theorem receiveOverflow_mem_iff {i : Instr} {inst : Instance} :
    .receiveOverflow ∈ conditionsMet i inst ↔ ∃ wcol, i = .dweOv wcol := by
  cases i with
  | dweOv wcol => cases wcol <;> simp [conditionsMet]
  | _ => simp [conditionsMet]

theorem writeCollision_mem_iff {i : Instr} {inst : Instance} :
    .writeCollision ∈ conditionsMet i inst ↔ i = .dweOv true ∨ i = .dweWcol := by
  cases i with
  | dweOv wcol => cases wcol <;> simp [conditionsMet]
  | _ => simp [conditionsMet]

theorem applicationBufferOverflow_mem_iff {i : Instr} {inst : Instance} :
    .applicationBufferOverflow ∈ conditionsMet i inst ↔ i = .dw ∧ inst.active = true ∧ inst.index = inst.cfg.cap := by
  cases i with
  | dweOv wcol => cases wcol <;> simp [conditionsMet]
  | _ => simp [conditionsMet, fullWhileActive_iff]

theorem transmitIndexOverflow_mem_iff {i : Instr} {inst : Instance} :
    .transmitIndexOverflow ∈ conditionsMet i inst ↔
      (∃ ov wcol, i = .dr ov wcol) ∧ inst.active = true ∧ inst.index = inst.cfg.cap := by
  cases i with
  | dweOv wcol => cases wcol <;> simp [conditionsMet]
  | _ => simp [conditionsMet, fullWhileActive_iff]

/-! ### X1, X2, X3: what marks them in the action list -/

/-- X1: no other event has the actions of a Collision (R171). -/
theorem EventActions.eq_rel_drr_iff {i : Instr} {acts : List Action} (h : EventActions i acts) :
    acts = [.rel, .drr] ↔ i = .col := by
  cases h <;> simp

/-- X2: no other event clears the receive overflow (R172). -/
theorem EventActions.clrOv_mem_iff {i : Instr} {acts : List Action} (h : EventActions i acts) :
    .clrOv ∈ acts ↔ ∃ wcol, i = .dweOv wcol := by
  cases h <;> simp

/-- X3: no other event clears the write collision (R173). -/
theorem EventActions.clrWcol_mem_iff {i : Instr} {acts : List Action} (h : EventActions i acts) :
    .clrWcol ∈ acts ↔ i = .dweOv true ∨ i = .dweWcol := by
  cases h with
  | discardOv wcol => cases wcol <;> simp
  | _ => simp

/-- X2, X3: a flagged byte is read and no register changes (R110). -/
theorem EventEffect.inst_of_flagged {k : Nat} {u v : Slave} {i : Instr} {acts : List Action} (h : EventEffect k u i v)
    (hacts : EventActions i acts) (hi : (∃ wcol, i = .dweOv wcol) ∨ i = .dweWcol) : v.inst = u.inst ∧ .drr ∈ acts := by
  obtain ⟨wcol, rfl⟩ | rfl := hi
  · cases hacts
    exact ⟨h.inst_of_dweOv, by simp⟩
  · cases hacts
    exact ⟨h.inst_of_dweWcol, by simp⟩

/-! ### X4: the byte that finds the buffer full -/

/-- A `DW` of an open transaction raises `index` by one unless the buffer is full (R113 to R117). -/
theorem EventEffect.index_of_dw_iff {k : Nat} {u v : Slave} (h : EventEffect k u .dw v) (hu : u.inst.Inv)
    (hactive : u.inst.active = true) : v.inst.index ≠ u.inst.index + 1 ↔ u.inst.index = u.inst.cfg.cap := by
  have hcap := hu.cap_pos
  cases h with
  | idleReceive ha => simp [hactive] at ha
  | append ha hi hs => simp [hi]
  | flush bytes ha hi hp hs hr hb => simp [hi]; omega
  | ignore ha hi hp => simp [hi]
  | overwrite ha hi hp hs => simp [hi]; omega

/-- What a `DW` does when it finds the buffer full, by policy (R115, R116, R117). -/
def ArbiterArm (u v : Slave) (acts : List Action) : Prop :=
  match u.inst.cfg.policy with
  | .triggerFlush => v.inst.index = 1 ∧ ∃ bytes, acts = [.drr, .readCall bytes u.inst.cfg.cap, .rel]
  | .ignore => v.inst.index = u.inst.cfg.cap ∧ v.inst.buf = u.inst.buf ∧ acts = [.drr, .rel]
  | .overwrite => v.inst.index = 1 ∧ acts = [.drr, .rel]

theorem EventEffect.arbiterArm {k : Nat} {u v : Slave} {acts : List Action} (h : EventEffect k u .dw v)
    (htrace : v.trace = u.trace ++ acts) (hactive : u.inst.active = true) (hfull : u.inst.index = u.inst.cfg.cap) :
    ArbiterArm u v acts := by
  unfold ArbiterArm
  cases h with
  | idleReceive ha => simp [hactive] at ha
  | append ha hi hs => exact absurd hfull hi
  | flush bytes ha hi hp hs hr hb =>
    obtain rfl : [.drr, .readCall bytes u.inst.cfg.cap, .rel] = acts := by simpa using htrace
    simp [hp]
  | ignore ha hi hp =>
    obtain rfl : [.drr, .rel] = acts := by simpa using htrace
    simp [hp, hi]
  | overwrite ha hi hp hs =>
    obtain rfl : [.drr, .rel] = acts := by simpa using htrace
    simp [hp]

/-! ### X5: the byte past the end of the buffer -/

/-- Only a `DR` loads the data register (R55). -/
theorem EventActions.exists_dr_of_drw {i : Instr} {acts : List Action} {b : Byte} (h : EventActions i acts)
    (hb : .drw b ∈ acts) : ∃ ov wcol, i = .dr ov wcol := by
  cases h with
  | idleTransmit ov wcol => exact ⟨ov, wcol, rfl⟩
  | transmit ov wcol c => exact ⟨ov, wcol, rfl⟩
  | firstByte ov wcol c => exact ⟨ov, wcol, rfl⟩
  | _ => simp at hb

/-- A `DR` that finds the buffer at its end loads the filler and moves nothing (R128). -/
theorem EventEffect.filler_of_full {k : Nat} {u v : Slave} {ov wcol : Bool} {acts : List Action}
    (h : EventEffect k u (.dr ov wcol) v) (htrace : v.trace = u.trace ++ acts) (hu : u.inst.Inv)
    (hactive : u.inst.active = true) (hfull : u.inst.index = u.inst.cfg.cap) :
    acts = [.drw u.inst.cfg.txFiller, .rel] ∧ v.inst.index = u.inst.index := by
  have hcap := hu.cap_pos
  cases h with
  | idleTransmit _ _ ha => simp [hactive] at ha
  | firstByte _ _ b ha hi hw hc hb => omega
  | laterByte _ _ b ha hi hc hb => omega
  | filler _ _ ha hi hc => exact ⟨by simpa [eq_comm] using htrace, rfl⟩
  | fillerNoCell _ _ ha hi hw hc => omega

/-- A `DR` that loads a byte and moves nothing has found the buffer of an open transaction at its end (R126, R128). -/
theorem EventEffect.full_of_drw {k : Nat} {u v : Slave} {ov wcol : Bool} {acts : List Action} {b : Byte}
    (h : EventEffect k u (.dr ov wcol) v) (htrace : v.trace = u.trace ++ acts) (hu : u.inst.Inv) (hb : .drw b ∈ acts)
    (hindex : v.inst.index = u.inst.index) : u.inst.active = true ∧ u.inst.index = u.inst.cfg.cap := by
  have hle := hu.index_le
  cases h with
  | idleTransmit _ _ ha =>
    obtain rfl : [.rel] = acts := by simpa using htrace
    simp at hb
  | firstByte _ _ c ha hi hw hc hread => exact absurd (hindex.trans hi) (by simp)
  | laterByte _ _ c ha hi hc hread => simp at hindex
  | filler _ _ ha hi hc => exact ⟨ha, by omega⟩
  | fillerNoCell _ _ ha hi hw hc => exact ⟨ha, by omega⟩

/-- Settles O55: the causes are those of `conditionsMet`, and what marks each is read off the actions and the registers. -/
theorem conditionCauses : Obligations.ConditionCauses := by
  intro i s t u v hs hu h hv
  have hinv : u.inst.Inv := hs.2 u (current?_mem hu)
  obtain ⟨heffect, -⟩ := exec_next_current hu h hv
  obtain ⟨acts, htrace, hacts⟩ := heffect.actions
  refine ⟨acts, htrace, ?_⟩
  simp only [busCollision_mem_iff, receiveOverflow_mem_iff, writeCollision_mem_iff, applicationBufferOverflow_mem_iff,
    transmitIndexOverflow_mem_iff]
  refine ⟨trivial, hacts.eq_rel_drr_iff.symm, ?abandoned, trivial, hacts.clrOv_mem_iff.symm, trivial,
    hacts.clrWcol_mem_iff.symm, ?flagged, trivial, ?notRaised, ?arm, trivial, ?filler, ?fillerActions⟩
  case abandoned =>
    rintro rfl
    exact heffect.inst_of_col
  case flagged =>
    rintro (hov | rfl | hwcol)
    · exact heffect.inst_of_flagged hacts (.inl hov)
    · exact heffect.inst_of_flagged hacts (.inl ⟨true, rfl⟩)
    · exact heffect.inst_of_flagged hacts (.inr hwcol)
  case notRaised =>
    refine and_congr_right ?_
    rintro rfl
    exact and_congr_right fun hactive => (heffect.index_of_dw_iff hinv hactive).symm
  case arm =>
    rintro ⟨rfl, hactive, hfull⟩
    exact heffect.arbiterArm htrace hactive hfull
  case filler =>
    constructor
    · rintro ⟨⟨ov, wcol, rfl⟩, hactive, hfull⟩
      obtain ⟨rfl, hindex⟩ := heffect.filler_of_full htrace hinv hactive hfull
      exact ⟨by simp, hindex⟩
    · rintro ⟨hdrw, hindex⟩
      obtain ⟨ov, wcol, rfl⟩ := hacts.exists_dr_of_drw hdrw
      exact ⟨⟨ov, wcol, rfl⟩, heffect.full_of_drw htrace hinv hdrw hindex⟩
  case fillerActions =>
    rintro ⟨⟨ov, wcol, rfl⟩, hactive, hfull⟩
    obtain ⟨hfiller, -⟩ := heffect.filler_of_full htrace hinv hactive hfull
    exact hfiller

end Sys2Proof.Machine
end
